-- ==== Sys2Proof/Word.lean ====
section
/-! DEFINITION. The words of MWADD's ports. A command word and a response word have 32 bits. A Float bundle has
`BW = 64 + NW_MAX * W` bits (rule R310), a width that is a parameter of the build; its bits are held as the unsigned
number that rule R10 reads from them, a `Nat` below `2 ^ BW` (log 11). -/

namespace Sys2Proof

/-- A command word or a response word (rules R300, R320). -/
abbrev Word32 := BitVec 32

end Sys2Proof
end

