-- ==== Sys2Proof/Value.lean ====
section
/-! DEFINITION. What bundles, command fields and response fields denote: Floats, rounding modes, orderings,
fault statuses and regimes. Their codes are in Decode.lean and Machine/Flags.lean. -/

namespace Sys2Proof

/-- A Float (rules R13, R110): `fin s e p m` is the number `(-1)^s * m * 2^(e - p + 1)`. A sign is `true` for
negative. -/
inductive Flt where
  | nan
  | inf (s : Bool)
  | zero (s : Bool)
  | fin (s : Bool) (e : Int) (p : Nat) (m : Nat)
  deriving DecidableEq, Repr, Inhabited

/-- The six rounding disciplines (rule R303). -/
inductive RoundMode where
  | nearest | floor | ceil | trunc | away | exact
  deriving DecidableEq, Repr, Inhabited

/-- The Ordering of the delivered result against the exact sum (rules R14, R323): `greater` means that the
result is greater than the exact sum (90_conflicts.md C3). -/
inductive OrderRel where
  | less | equal | greater
  deriving DecidableEq, Repr, Inhabited

/-- The statuses other than OK (rules R321, R602). -/
inductive FaultStatus where
  | illegalCommand | invalidPrecision | invalidOperand | inexact | expOverflow | subRequired
  deriving DecidableEq, Repr, Inhabited

/-- The kernel classes of the regime dispatcher (rule R322). -/
inductive Regime where
  | none | ltW | eqW | gtWLt2W | eq2W | gt2WLt3W | ge3W | general
  deriving DecidableEq, Repr, Inhabited

/-- Why a command word is illegal: the conditions (a) to (e) of rule R304, in that order. -/
inductive IllegalCause where
  | reservedOpc | reservedBit | reservedMode | unusedMode | unusedPrecision
  deriving DecidableEq, Repr, Inhabited

end Sys2Proof
end

