-- ==== Sys2Proof/Port.lean ====
section
/-! DEFINITION. What crosses MWADD's ports (rule R100). -/

namespace Sys2Proof

/-- The request latch `REQ = (CMD, X, Y)` (rule R107). -/
structure Request where
  cmd : Word32
  x : Nat
  y : Nat
  deriving DecidableEq, Repr, Inhabited

/-- The response register `RSP = (RWORD, Z)` (rule R108). -/
structure Response where
  word : Word32
  z : Nat
  deriving DecidableEq, Repr, Inhabited

/-- The levels the host drives on the input ports (rule R100). -/
structure Pins where
  rst : Bool
  reqValid : Bool
  reqCmd : Word32
  reqX : Nat
  reqY : Nat
  rspReady : Bool
  deriving DecidableEq, Repr, Inhabited

/-- The levels MWADD drives on the output ports (rule R100). -/
structure Outputs where
  reqReady : Bool
  rspValid : Bool
  rspWord : Word32
  rspZ : Nat
  deriving DecidableEq, Repr, Inhabited

end Sys2Proof
end

