-- ==== Sys2Proof/Config.lean ====
section
/-! DEFINITION. The parameters a build fixes (00_scope.md section 4) and the free values: constants without a
body, so that no proof can use which value they have. -/

namespace Sys2Proof

/-- The parameters of one build of MWADD (rules R5 to R8). State carries them, so a statement about every
state is about every build (log 2). -/
structure Build where
  /-- `W`, the word width in bits (rule R5). -/
  w : Nat
  /-- `NW_MAX`, the number of significand words of a bundle (rule R6). -/
  nwMax : Nat
  /-- `EMIN` (rule R7). -/
  emin : Int
  /-- `EMAX` (rule R7). -/
  emax : Int
  /-- `LAT_MAX`, the largest latency in edges (rule R8). -/
  latMax : Nat
  deriving DecidableEq, Repr, Inhabited

/-- `P_MAX = NW_MAX * W` (rule R6). -/
def Build.pMax (b : Build) : Nat := b.nwMax * b.w

/-- `BW = 64 + NW_MAX * W`, the width of one bundle (rules R100, R310). -/
def Build.bundleBits (b : Build) : Nat := 64 + b.nwMax * b.w

/-- FREE VALUE (R706, IMP4; log 3): the draw that fixes the latency of the operation accepted at an edge. -/
opaque Config.latencyDraw : Nat → Nat

/-- FREE VALUE (R8; log 3): `LAT_MAX - 1` of the build that `State.reset` is of. -/
opaque Config.spareLatency : Nat

/-- FREE VALUE (log 4): the levels the host drives at an edge for which nothing is scheduled. -/
opaque Config.hostPins : Nat → Pins

/-- FREE VALUE (R107, IMP1; log 7): what `REQ` holds after a reset edge. -/
opaque Config.lostRequest : Nat → Request

/-- FREE VALUE (R108, IMP2; log 7): what `RSP` holds after a reset edge. -/
opaque Config.lostResponse : Nat → Response

/-- FREE VALUE (R108, IMP2; log 8): what `rsp_word` and `rsp_z` carry while `rsp_valid = 0`. -/
opaque Config.idleResponse : Nat → Response

/-- The build `State.reset` is of: `W = 64` and the exponent range are the spec's defaults (R5, R7), `NW_MAX = 4`
is that of the test configuration TC64 (DESIGN CHOICE, log 2), `LAT_MAX` is a free value. -/
def Config.resetBuild : Build where
  w := 64
  nwMax := 4
  emin := -2147483648
  emax := 2147483647
  latMax := Config.spareLatency + 1

end Sys2Proof
end

