-- ==== Sys2Proof/Syntax.lean ====
section
/-! DEFINITION. The four commands of MWADD (rule R301, spec/opcode_table.json). -/

namespace Sys2Proof

/-- A command: one constructor per row of the opcode table. The two operands are no part of the command word;
they are the bundles of the same request (rules R107, R206). -/
inductive Instr where
  /-- `ADD.PR.<rm> #tprec, x, y` (rule R510). -/
  | addPrecRound (tprec : Nat) (rm : RoundMode)
  /-- `ADD.P #tprec, x, y` (rule R511). -/
  | addPrec (tprec : Nat)
  /-- `ADD.R.<rm> x, y` (rule R512). -/
  | addRound (rm : RoundMode)
  /-- `ADD x, y` (rule R513). -/
  | add
  deriving DecidableEq, Repr, Inhabited

end Sys2Proof
end

