-- ==== Sys2Proof/WellFormed.lean ====
section
/-! DEFINITION. Which builds, commands and Floats are legal. Each check is decidable. -/

namespace Sys2Proof

/-- The legal parameters of a build (rules R5 to R8). A build outside them is refused (IMP5, IMP6; log 12). -/
abbrev Build.Legal (b : Build) : Prop :=
  (b.w = 8 ∨ b.w = 16 ∨ b.w = 32 ∨ b.w = 64) ∧
  3 ≤ b.nwMax ∧
  b.nwMax * b.w ≤ 16777215 ∧
  -2147483648 ≤ b.emin ∧ b.emin ≤ 0 ∧ 0 ≤ b.emax ∧ b.emax ≤ 2147483647 ∧
  b.latMax ≠ 0

/-- A command is well formed when its target precision fits the 24-bit field `TPREC` (rule R300), that is, when
it has an encoding. -/
abbrev Instr.WellFormed : Instr → Prop
  | .addPrecRound tprec _ => tprec < 16777216
  | .addPrec tprec => tprec < 16777216
  | .addRound _ => True
  | .add => True

/-- The condition of rule R305 on the target precision of the two commands that carry one. A command without it
runs too, and is answered with INVALID_PRECISION. -/
abbrev Instr.PrecisionValid (b : Build) : Instr → Prop
  | .addPrecRound tprec _ => 1 ≤ tprec ∧ tprec ≤ b.pMax
  | .addPrec tprec => 1 ≤ tprec ∧ tprec ≤ b.pMax
  | .addRound _ => True
  | .add => True

/-- A legal Float of a build (rules R111, R114). -/
abbrev Flt.Legal (b : Build) : Flt → Prop
  | .nan => True
  | .inf _ => True
  | .zero _ => True
  | .fin _ e p m => 1 ≤ p ∧ p ≤ b.pMax ∧ b.emin ≤ e ∧ e ≤ b.emax ∧ 2 ^ (p - 1) ≤ m ∧ m < 2 ^ p

end Sys2Proof
end

