-- ==== Sys2Proof/Decode.lean ====
section
/-! DEFINITION. Reading and writing the encodings of 30_encoding.md: command words and Float bundles. -/

namespace Sys2Proof

/-! ## Fields of a word (rules R10, R11) -/

/-- `v[hi:lo]`, read as an unsigned number (rule R10). -/
def field (v hi lo : Nat) : Nat := v / 2 ^ lo % 2 ^ (hi + 1 - lo)

/-- `bit(v, i)` (rule R11). -/
def bitAt (v i : Nat) : Bool := v / 2 ^ i % 2 == 1

/-- `sext_n(v)`: an `n`-bit field read as two's complement (rule R11). -/
def sext (n v : Nat) : Int := if v < 2 ^ (n - 1) then (v : Int) else (v : Int) - 2 ^ n

/-- `ceil(a / b)` (rule R11). -/
def ceilDiv (a b : Nat) : Nat := (a + b - 1) / b

/-! ## Command words -/

/-- The code of a rounding mode in the field `RM` (rule R303). -/
def modeCode : RoundMode → Nat
  | .nearest => 0
  | .floor => 1
  | .ceil => 2
  | .trunc => 3
  | .away => 4
  | .exact => 5

/-- The rounding mode of an `RM` code; codes 6 and 7 are reserved (rule R303). -/
def modeOfCode : Nat → Option RoundMode
  | 0 => some .nearest
  | 1 => some .floor
  | 2 => some .ceil
  | 3 => some .trunc
  | 4 => some .away
  | 5 => some .exact
  | _ => none

/-- `OPC` of a command word (rule R300). -/
def opcOf (c : Word32) : Nat := field c.toNat 3 0

/-- `RM` of a command word (rule R300). -/
def rmOf (c : Word32) : Nat := field c.toNat 6 4

/-- The reserved bit 7 of a command word (rule R300). -/
def reservedOf (c : Word32) : Nat := field c.toNat 7 7

/-- `TPREC` of a command word (rule R300). -/
def tprecOf (c : Word32) : Nat := field c.toNat 31 8

/-- `illegal(CMD)`, the formula of rule R304. -/
def illegal (c : Word32) : Bool :=
  decide (4 ≤ opcOf c) || decide (reservedOf c ≠ 0) || decide (6 ≤ rmOf c)
    || (bitAt (opcOf c) 0 && decide (rmOf c ≠ 0)) || (bitAt (opcOf c) 1 && decide (tprecOf c ≠ 0))

/-- The command a legal command word stands for (rules R300 to R303); an illegal word is rejected with the first
condition of rule R304 that it meets. -/
def decode (c : Word32) : Except IllegalCause Instr :=
  if 4 ≤ opcOf c then .error .reservedOpc
  else if reservedOf c ≠ 0 then .error .reservedBit
  else
    match modeOfCode (rmOf c) with
    | none => .error .reservedMode
    | some m =>
      if bitAt (opcOf c) 0 && decide (rmOf c ≠ 0) then .error .unusedMode
      else if bitAt (opcOf c) 1 && decide (tprecOf c ≠ 0) then .error .unusedPrecision
      else
        match opcOf c with
        | 0 => .ok (.addPrecRound (tprecOf c) m)
        | 1 => .ok (.addPrec (tprecOf c))
        | 2 => .ok (.addRound m)
        | _ => .ok .add

/-- `CMD = {TPREC[23:0], 0, RM[2:0], OPC[3:0]}` (rules R300, R331). -/
def commandWord (tprec rm opc : Nat) : Word32 :=
  BitVec.ofNat 32 (tprec * 2 ^ 8 + rm * 2 ^ 4 + opc)

/-- The command word of a command; a field the opcode does not use is zero (rules R302, R331). -/
def encode : Instr → Word32
  | .addPrecRound tprec rm => commandWord tprec (modeCode rm) 0
  | .addPrec tprec => commandWord tprec 0 1
  | .addRound rm => commandWord 0 (modeCode rm) 2
  | .add => commandWord 0 0 3

/-- The command the decoder reads from the low `nbits` bits of `w`, the bits above them being 0. A command word
is one 32-bit transfer (rule R206), so there is no order of words or bytes. -/
def decodeTableWord (nbits w : Nat) : Option Instr :=
  match decode (BitVec.ofNat 32 (w % 2 ^ nbits)) with
  | .ok i => some i
  | .error _ => none

/-! ## Significand words (rules R112, R203) -/

/-- The number `Σ S[i] * 2^(W*i)` of a list of words, least significant word first (rule R112). -/
def wordsValue (w : Nat) : List Nat → Nat
  | [] => 0
  | a :: as => a + 2 ^ w * wordsValue w as

/-- The `n` words of a number, least significant word first; what does not fit `n` words is dropped. -/
def toWords (w : Nat) : Nat → Nat → List Nat
  | 0, _ => []
  | n + 1, v => v % 2 ^ w :: toWords w n (v / 2 ^ w)

/-- `S[i]` of a bundle (rules R203, R310). -/
def bundleWord (b : Build) (B : Nat) (i : Nat) : Nat := field B (64 + b.w * (i + 1) - 1) (64 + b.w * i)

/-- `S[0], …, S[NW_MAX - 1]` of a bundle. -/
def bundleWords (b : Build) (B : Nat) : List Nat := (List.range b.nwMax).map (bundleWord b B)

/-- The bits of a bundle port: those at or above `BW` do not exist (rule R100; log 11). -/
def cutBundle (b : Build) (B : Nat) : Nat := B % 2 ^ b.bundleBits

/-- The number of words of a significand of `p` bits, `ceil(p / W)` (rule R112). -/
def wordsFor (w p : Nat) : Nat := ceilDiv p w

/-- The padding bits of a significand of `p` bits, `n*W - p` (rule R112). -/
def padBits (w p : Nat) : Nat := wordsFor w p * w - p

/-! ## Float bundles -/

/-- The Finite part of `DecodeBundle` (rule R312). -/
def decodeFinite (b : Build) (s : Bool) (e : Int) (p : Nat) (ws : List Nat) : Option Flt :=
  if p < 1 ∨ b.pMax < p then none
  else if e < b.emin ∨ b.emax < e then none
  else if bitAt (ws.getD (wordsFor b.w p - 1) 0) (b.w - 1) = false then none
  else if ws.getD 0 0 % 2 ^ padBits b.w p ≠ 0 then none
  else if (ws.drop (wordsFor b.w p)).any (fun a => a != 0) then none
  else some (.fin s e p (wordsValue b.w (ws.take (wordsFor b.w p)) / 2 ^ padBits b.w p))

/-- `DecodeBundle(B)` (rules R310 to R312); `none` is INVALID. -/
def decodeBundle (b : Build) (B : Nat) : Option Flt :=
  let h := field B 63 0
  let cls := field h 57 56
  let s := bitAt h 58
  if field h 63 59 ≠ 0 then none
  else if cls ≠ 1 then
    if field h 31 0 ≠ 0 ∨ field h 55 32 ≠ 0 ∨ (bundleWords b B).any (fun a => a != 0) = true then none
    else if cls = 3 then (if s then none else some .nan)
    else if cls = 0 then some (.zero s)
    else some (.inf s)
  else decodeFinite b s (sext 32 (field h 31 0)) (field h 55 32) (bundleWords b B)

/-- A header `H = {0, SGN, CLS, PREC, EXP}` (rule R310). -/
def packHeader (sgn : Bool) (cls prec exp : Nat) : Nat :=
  sgn.toNat * 2 ^ 58 + cls * 2 ^ 56 + prec * 2 ^ 32 + exp

/-- A bundle of a header and its significand words (rules R203, R310). -/
def packBundle (b : Build) (h : Nat) (ws : List Nat) : Nat := h + 2 ^ 64 * wordsValue b.w ws

/-- `EncodeBundle(z)` (rules R310, R311, R313). DESIGN CHOICE (log 21): a Float whose precision does not fit the 24-bit
field `PREC`, or whose words do not fit the bundle, has no bundle in the spec; here `PREC` is the precision modulo
`2^24` and the words above the bundle are dropped. -/
def encodeBundle (b : Build) : Flt → Nat
  | .nan => packHeader false 3 0 0
  | .inf s => packHeader s 2 0 0
  | .zero s => packHeader s 0 0 0
  | .fin s e p m =>
    packBundle b (packHeader s 1 (p % 2 ^ 24) (e % 2 ^ 32).toNat)
      (toWords b.w b.nwMax (m * 2 ^ padBits b.w p))

end Sys2Proof
end

