-- ==== Sys2Proof/Machine/State.lean ====
section
/-! DEFINITION. The state of MWADD as plain data, what ends a run, and the state right after reset. -/

namespace Sys2Proof.Machine

/-- The handshake state `ST` (rule R106). -/
inductive Handshake where
  /-- No operation is held. -/
  | idle
  /-- An accepted request is being computed. -/
  | busy
  /-- The response is held in `RSP` and presented. -/
  | done
  deriving DecidableEq, Repr, Inhabited

/-- A stop of the machine. There is none: every failure the spec names is a response with a fault status, after
which the machine goes on (rules R600, R603, R604, R621). Nothing raises a fault, and a type without a
constructor says so; that is safe. -/
inductive Fault where
  deriving DecidableEq, Repr

/-- Why a step has no meaning. -/
inductive Refusal where
  /-- Raised by an arm of `exec` for a command that has no meaning yet; no arm is such. Safe: the model stops. -/
  | notModelled (mnemonic : String)
  /-- Raised by `step` in a state whose build parameters are outside the legal ranges of rules R5 to R8: the spec
  says that such a build is refused (93_implementation_defined.md IMP5, IMP6; log 12). Safe: the model stops. -/
  | illegalBuild
  deriving DecidableEq, Repr

/-- The state of MWADD. -/
structure State where
  /-- The parameters of the build; no step changes them (rules R5 to R8; log 2). -/
  build : Build
  /-- `ST` (rule R106). -/
  st : Handshake
  /-- `REQ` (rule R107). -/
  req : Request
  /-- `RSP` (rule R108). -/
  rsp : Response
  /-- The edges left until the completing edge of the operation in `BUSY`, that edge counted (rule R706). -/
  lat : Nat
  /-- MODEL'S OWN: the levels the host drives at the coming edges, the next edge first (log 4). -/
  host : List Pins
  /-- MODEL'S OWN: the number of edges so far, the index of the free values (log 18). -/
  edges : Nat
  deriving DecidableEq, Repr

/-- The state right after reset: `ST = IDLE` (rule R700, 10_state.md section 3). `REQ` and `RSP` are unspecified
there; zero is this model's DESIGN CHOICE (log 6). -/
def State.reset : State where
  build := Config.resetBuild
  st := .idle
  req := { cmd := 0, x := 0, y := 0 }
  rsp := { word := 0, z := 0 }
  lat := 0
  host := []
  edges := 0

end Sys2Proof.Machine
end

