-- ==== Sys2Proof/Machine/Flags.lean ====
section
/-! DEFINITION. The rounding engine, which computes the increment and the Ordering (rules R420 to R427), and the
response word, which holds every flag of an operation (rules R320 to R325). -/

namespace Sys2Proof.Machine

/-- Whether the discarded mass is nonzero (rule R420). -/
def inexactOf (r st : Bool) : Bool := r || st

/-- The increment decision of each mode other than EXACT (rules R422 to R426), and of EXACT when nothing is
discarded (rule R421). -/
def incrementOf (lsb r st s : Bool) : RoundMode → Bool
  | .nearest => r && (st || lsb)
  | .floor => inexactOf r st && s
  | .ceil => inexactOf r st && !s
  | .trunc => false
  | .away => inexactOf r st
  | .exact => false

/-- The Ordering of the rounded result against the exact value (rule R427). -/
def orderOf (r st s inc : Bool) : OrderRel :=
  if inexactOf r st = false then .equal
  else if inc = !s then .greater
  else .less

/-- `RENG(lsb, r, st, s, m)` (rule R420). -/
def reng (lsb r st s : Bool) (m : RoundMode) : Except FaultStatus (Bool × OrderRel) :=
  if m = .exact ∧ inexactOf r st = true then .error .inexact
  else .ok (incrementOf lsb r st s m, orderOf r st s (incrementOf lsb r st s m))

/-- The code of a fault status in the field `STATUS` (rule R321). -/
def faultCode : FaultStatus → Nat
  | .illegalCommand => 1
  | .invalidPrecision => 2
  | .invalidOperand => 3
  | .inexact => 4
  | .expOverflow => 5
  | .subRequired => 6

/-- The code of a regime in the field `REGIME` (rule R322). -/
def regimeCode : Regime → Nat
  | .none => 0
  | .ltW => 1
  | .eqW => 2
  | .gtWLt2W => 3
  | .eq2W => 4
  | .gt2WLt3W => 5
  | .ge3W => 6
  | .general => 7

/-- The code of an Ordering in the field `ORD`, a 2-bit two's-complement number (rule R323). -/
def orderCode : OrderRel → Nat
  | .equal => 0
  | .greater => 1
  | .less => 3

/-- A response word of its fields (rule R320). -/
def packResponse (status ord regime : Nat) (rb sb inc : Bool) : Word32 :=
  BitVec.ofNat 32
    (inc.toNat * 2 ^ 11 + sb.toNat * 2 ^ 10 + rb.toNat * 2 ^ 9 + regime * 2 ^ 6 + ord * 2 ^ 4 + status)

/-- `STATUS` of a response word (rule R320). -/
def statusOf (r : Word32) : Nat := field r.toNat 3 0

/-- `ORD` of a response word (rule R320). -/
def ordOf (r : Word32) : Nat := field r.toNat 5 4

/-- `REGIME` of a response word (rule R320). -/
def regimeOf (r : Word32) : Nat := field r.toNat 8 6

/-- `RB` of a response word (rule R320). -/
def rbOf (r : Word32) : Bool := bitAt r.toNat 9

/-- `SB` of a response word (rule R320). -/
def sbOf (r : Word32) : Bool := bitAt r.toNat 10

/-- `INC` of a response word (rule R320). -/
def incOf (r : Word32) : Bool := bitAt r.toNat 11

end Sys2Proof.Machine
end

