-- ==== Sys2Proof/Machine/Rounding.lean ====
section
/-! DEFINITION. The specification of record: rounding an exact value to a precision (rule R430). -/

namespace Sys2Proof.Machine

/-- `bitlen(N)` (rule R11). -/
def bitlen (n : Nat) : Nat := if n = 0 then 0 else n.log2 + 1

/-- A significand cut to `p` bits: the retained bits, the round bit and the sticky bit. -/
structure Cut where
  t : Nat
  r : Bool
  st : Bool
  deriving DecidableEq, Repr

/-- The first part of `RoundSOR`: the `p` bits retained of `N`, the most significant discarded bit, and the OR of
the other discarded bits (rules R430, R453). -/
def cutTo (n p : Nat) : Cut :=
  if bitlen n ≤ p then { t := n * 2 ^ (p - bitlen n), r := false, st := false }
  else
    { t := n / 2 ^ (bitlen n - p)
      r := bitAt n (bitlen n - p - 1)
      st := decide (n % 2 ^ (bitlen n - p - 1) ≠ 0) }

/-- A rounded value with the fields its rounding step gives (rule R430). -/
structure Rounded where
  z : Flt
  ord : OrderRel
  rb : Bool
  sb : Bool
  inc : Bool
  deriving DecidableEq, Repr

/-- One unit added in the last retained bit when the engine says so; the carry out of the top renormalizes
(rule R430). -/
def increment (inc : Bool) (t : Nat) (e : Int) (p : Nat) : Nat × Int :=
  if inc = false then (t, e)
  else if t + 1 = 2 ^ p then (2 ^ (p - 1), e + 1)
  else (t + 1, e)

/-- The last part of every rounding: the rounding engine, the increment and the check against `EMAX`
(rules R430, R433, R444). -/
def roundCut (emax : Int) (c : Cut) (e : Int) (s : Bool) (p : Nat) (m : RoundMode) : Except FaultStatus Rounded :=
  match reng (c.t % 2 == 1) c.r c.st s m with
  | .error f => .error f
  | .ok (inc, ord) =>
    if emax < (increment inc c.t e p).2 then .error .expOverflow
    else
      .ok
        { z := .fin s (increment inc c.t e p).2 p (increment inc c.t e p).1
          ord := ord, rb := c.r, sb := c.st, inc := inc }

/-- `RoundSOR(N, q, s, p, m)` (rule R430), for `N > 0`. -/
def roundSOR (emax : Int) (n : Nat) (q : Int) (s : Bool) (p : Nat) (m : RoundMode) : Except FaultStatus Rounded :=
  roundCut emax (cutTo n p) (q + bitlen n - 1) s p m

end Sys2Proof.Machine
end

