-- ==== Sys2Proof/Machine/Operands.lean ====
section
/-! DEFINITION. The operands of a command: their decoding, the target precision and mode a command selects, the
order of two finite operands, and their exact sum. -/

namespace Sys2Proof.Machine

/-- `pp(v)` (rule R501). -/
def precisionOf : Flt → Nat
  | .fin _ _ p _ => p
  | _ => 1

/-- `max(pp(x), pp(y))`, the target precision of ADD_ROUND and ADD (rule R501). -/
def operandPrecision (x y : Flt) : Nat := max (precisionOf x) (precisionOf y)

/-- A finite operand's exponent, precision and significand; its sign is common to both operands
(40_datapath.md, introduction). -/
structure Magnitude where
  e : Int
  p : Nat
  m : Nat
  deriving DecidableEq, Repr

/-- The ulp exponent `q = e - p + 1` (rule R400). -/
def Magnitude.ulp (a : Magnitude) : Int := a.e - a.p + 1

/-- `a` and `b`: the operand with the larger exponent first, `x` first when they are equal (rule R401). -/
def orderOperands (x y : Magnitude) : Magnitude × Magnitude := if x.e < y.e then (y, x) else (x, y)

/-- An exact value `n * 2^q`. -/
structure Exact where
  n : Nat
  q : Int
  deriving DecidableEq, Repr

/-- `(Ma << (qa - q)) + (Mb << (qb - q))` with `q = min(qa, qb)` (rule R402). -/
def addExact (ma : Nat) (qa : Int) (mb : Nat) (qb : Int) : Exact :=
  { n := ma * 2 ^ (qa - min qa qb).toNat + mb * 2 ^ (qb - min qa qb).toNat, q := min qa qb }

/-- The exact sum of two same-sign finite operands (rule R402). -/
def exactSum (a b : Magnitude) : Exact := addExact a.m a.ulp b.m b.ulp

/-- Both operands decoded, or INVALID_OPERAND: `x` is checked first, then `y`, with one code (rules R500, R610). -/
def withOperands {α : Type} (b : Build) (X Y : Nat) (k : Flt → Flt → Except FaultStatus α) : Except FaultStatus α :=
  match decodeBundle b X with
  | none => .error .invalidOperand
  | some x =>
    match decodeBundle b Y with
    | none => .error .invalidOperand
    | some y => k x y

/-- The check of a command's target precision, before the operands are looked at (rules R305, R500). -/
def withPrecision {α : Type} (b : Build) (tprec : Nat) (k : Except FaultStatus α) : Except FaultStatus α :=
  if tprec < 1 ∨ b.pMax < tprec then .error .invalidPrecision else k

/-- `Select(opc, rm, tp, x, y)` on the raw fields of a command word (rule R501). -/
def select (opc rm tp : Nat) (x y : Flt) : Nat × RoundMode :=
  (if bitAt opc 1 then operandPrecision x y else tp,
   if bitAt opc 0 then .nearest else (modeOfCode rm).getD .nearest)

end Sys2Proof.Machine
end

