-- ==== Sys2Proof/Machine/Kernels.lean ====
section
/-! DEFINITION. The word primitives, the alignment shifter, the regime dispatcher, and the fixed-width and general
kernels (40_datapath.md sections 2, 3, 6, 7 and 8). The machine answers with the specification of record; the
kernels are the structure the spec gives for computing the same answer (rules R446, R455; log 13). -/

namespace Sys2Proof.Machine

/-! ## Word primitives -/

/-- `ADC(a, b, c_in)`: the sum word and the carry (rule R405). -/
def adc (w a b c : Nat) : Nat × Nat := ((a + b + c) % 2 ^ w, (a + b + c) / 2 ^ w)

/-- `MWADD_n` with a carry in: the sum words, and the carry out of the top word (rule R406). -/
def mwadd (w : Nat) : List Nat → List Nat → Nat → List Nat × Nat
  | a :: as, b :: bs, c =>
    ((adc w a b c).1 :: (mwadd w as bs (adc w a b c).2).1, (mwadd w as bs (adc w a b c).2).2)
  | _, _, c => ([], c)

/-- `MWINC_n(A, pad)`: one unit added in the last retained bit (rule R407). -/
def mwinc (w : Nat) (as : List Nat) (pad : Nat) : List Nat × Nat :=
  mwadd w as (toWords w as.length (2 ^ pad)) 0

/-- `SHR(V, d)`: the shifted value and the discarded bits (rule R408). -/
def shr (v d : Nat) : Nat × Nat := (v / 2 ^ d, v % 2 ^ d)

/-- `ALIGN(M, p, d)` (rule R410, with the correction of 90_conflicts.md C2 at `d = p`). One worked
example of the rule contradicts its pseudocode, which is followed (log 5). -/
def align (m p d : Nat) : Cut :=
  if d = 0 then { t := m, r := false, st := false }
  else if d ≤ p then { t := m / 2 ^ d, r := bitAt m (d - 1), st := decide (m % 2 ^ (d - 1) ≠ 0) }
  else { t := 0, r := false, st := true }

/-! ## The regime dispatcher -/

/-- `Regime(p_x, p_y, p)` (rule R440). -/
def regime (w px py p : Nat) : Regime :=
  if ¬(px = py ∧ py = p) then .general
  else if p < w then .ltW
  else if p = w then .eqW
  else if p < 2 * w then .gtWLt2W
  else if p = 2 * w then .eq2W
  else if p < 3 * w then .gt2WLt3W
  else .ge3W

/-! ## The fixed-width kernels -/

/-- Step 3, post-normalize: the old round and sticky bits go to sticky, the bit shifted out becomes the round bit
(rule R443). -/
def postNormalize (p sum : Nat) (r st : Bool) (e : Int) : Cut × Int :=
  if 2 ^ p ≤ sum then ({ t := sum / 2, r := bitAt sum 0, st := r || st }, e + 1)
  else ({ t := sum, r := r, st := st }, e)

/-- Step 4, round, on left-aligned words: the rounding engine, `MWINC_n`, and the renormalization when it carries
out of the top word (rules R407, R444). -/
def roundWords (w : Nat) (emax : Int) (c : Cut) (e : Int) (s : Bool) (p : Nat) (m : RoundMode) :
    Except FaultStatus Rounded :=
  match reng (c.t % 2 == 1) c.r c.st s m with
  | .error f => .error f
  | .ok (inc, ord) =>
    let words := toWords w (wordsFor w p) (c.t * 2 ^ padBits w p)
    let bumped := mwinc w words (padBits w p)
    let t :=
      if inc = false then wordsValue w words / 2 ^ padBits w p
      else if bumped.2 = 1 then 2 ^ (p - 1)
      else wordsValue w bumped.1 / 2 ^ padBits w p
    let e := if inc = true ∧ bumped.2 = 1 then e + 1 else e
    if emax < e then .error .expOverflow
    else .ok { z := .fin s e p t, ord := ord, rb := c.r, sb := c.st, inc := inc }

/-- The fixed-width kernel for one common precision `p`: align, add, post-normalize, round, on `ceil(p / W)`
left-aligned words (rules R441 to R445). -/
def fixedKernel (w : Nat) (emax : Int) (a b : Magnitude) (s : Bool) (p : Nat) (m : RoundMode) :
    Except FaultStatus Rounded :=
  let n := wordsFor w p
  let pad := padBits w p
  let al := align b.m p (a.e - b.e).toNat
  let added := mwadd w (toWords w n (a.m * 2 ^ pad)) (toWords w n (al.t * 2 ^ pad)) 0
  let sum := (wordsValue w added.1 + added.2 * 2 ^ (w * n)) / 2 ^ pad
  let norm := postNormalize p sum al.r al.st a.e
  roundWords w emax norm.1 norm.2 s p m

/-- The equivalent realization of rule R445: the padding bits keep what `ALIGN` would discard, and round and sticky
are read from the padding bits of the sum followed by the bits shifted out. -/
def paddedKernel (w : Nat) (emax : Int) (a b : Magnitude) (s : Bool) (p : Nat) (m : RoundMode) :
    Except FaultStatus Rounded :=
  let pad := padBits w p
  let d := (a.e - b.e).toNat
  let shifted := shr (b.m * 2 ^ pad) d
  let f := a.m * 2 ^ pad + shifted.1
  let tail := f % 2 ^ pad * 2 ^ d + shifted.2
  let r := if pad + d = 0 then false else bitAt tail (pad + d - 1)
  let st := if pad + d = 0 then false else decide (tail % 2 ^ (pad + d - 1) ≠ 0)
  let norm := postNormalize p (f / 2 ^ pad) r st a.e
  roundCut emax norm.1 norm.2 s p m

/-! ## The general kernel -/

/-- The guard position `G` (rule R451). -/
def guardPosition (a : Magnitude) (p : Nat) : Int := min a.ulp (a.e - p)

/-- The exact sum with `b` compressed to one sticky unit when it lies wholly below the guard position
(rule R451). -/
def compressedSum (a b : Magnitude) (p : Nat) : Exact :=
  if b.e < guardPosition a p then addExact a.m a.ulp 1 (guardPosition a p - 1)
  else addExact a.m a.ulp b.m b.ulp

/-- The general kernel in the bounded realization of rules R451 to R453. -/
def generalKernel (emax : Int) (a b : Magnitude) (s : Bool) (p : Nat) (m : RoundMode) : Except FaultStatus Rounded :=
  roundSOR emax (compressedSum a b p).n (compressedSum a b p).q s p m

/-- What the dispatched datapath computes for two same-sign finite operands: the fixed kernel for one common
precision, the general kernel otherwise (rules R440, R441, R450). -/
def dispatchKernel (w : Nat) (emax : Int) (x y : Magnitude) (s : Bool) (p : Nat) (m : RoundMode) :
    Except FaultStatus Rounded :=
  let ab := orderOperands x y
  if regime w x.p y.p p = .general then generalKernel emax ab.1 ab.2 s p m
  else fixedKernel w emax ab.1 ab.2 s p m

end Sys2Proof.Machine
end

