-- ==== Sys2Proof/Machine/Ops.lean ====
section
/-! DEFINITION. The named operations on the state: what a response is, how a failure is reported (the machine's
only form of exception, rules R600 and R603), and what one rising edge does to the handshake. -/

namespace Sys2Proof.Machine

/-! ## Responses -/

/-- What an operation that does not fail delivers (rule R12, `deliver`). -/
structure Delivery where
  z : Flt
  ord : OrderRel
  rb : Bool
  sb : Bool
  inc : Bool
  regime : Regime
  deriving DecidableEq, Repr

/-- The response with STATUS OK (rules R500, R313, R320). -/
def okResponse (b : Build) (d : Delivery) : Response :=
  { word := packResponse 0 (orderCode d.ord) (regimeCode d.regime) d.rb d.sb d.inc
    z := encodeBundle b d.z }

/-- TAKING AN EXCEPTION: the response of a failing operation has its status code, every other bit 0 and no result.
Nothing else is saved, and there is no handler and no return (rules R325, R603, R621, R622). -/
def faultResponse (f : FaultStatus) : Response :=
  { word := packResponse (faultCode f) 0 0 false false false, z := 0 }

/-- The response of an operation, failed or not. -/
def responseOf (b : Build) : Except FaultStatus Delivery → Response
  | .ok d => okResponse b d
  | .error f => faultResponse f

/-! ## What an edge does -/

/-- The input levels that the next edge samples: the head of the schedule, else a free value (log 4). -/
def State.pinsNow (s : State) : Pins := s.host.headD (Config.hostPins s.edges)

/-- The input levels that the edge after `k` more edges samples. -/
def State.pinsAt (s : State) (k : Nat) : Pins := s.host.getD k (Config.hostPins (s.edges + k))

/-- Time goes on by one edge: the next levels of the schedule are due. -/
def State.tick (s : State) : State := { s with host := s.host.tail, edges := s.edges + 1 }

/-- A reset edge: `ST` becomes `IDLE` and an operation in flight is discarded (rules R700, R701); `REQ` and `RSP`
become unspecified (rules R107, R108; log 7). -/
def State.resetEdge (s : State) : State :=
  { s with
    st := .idle
    lat := 0
    req :=
      { cmd := (Config.lostRequest s.edges).cmd
        x := cutBundle s.build (Config.lostRequest s.edges).x
        y := cutBundle s.build (Config.lostRequest s.edges).y }
    rsp :=
      { word := (Config.lostResponse s.edges).word
        z := cutBundle s.build (Config.lostResponse s.edges).z } }

/-- The request the ports present, sampled whole (rules R206, R702). -/
def sampleRequest (b : Build) (p : Pins) : Request :=
  { cmd := p.reqCmd, x := cutBundle b p.reqX, y := cutBundle b p.reqY }

/-- The latency of an operation accepted at edge `k`: an unconstrained draw in `[1, LAT_MAX]` (rule R706; log 3). -/
def latencyAt (b : Build) (k : Nat) : Nat := Config.latencyDraw k % b.latMax + 1

/-- An accepting edge (rule R702). -/
def State.accept (s : State) (p : Pins) : State :=
  { s with st := .busy, req := sampleRequest s.build p, lat := latencyAt s.build s.edges }

/-- An edge in `BUSY` before the completing edge (rule R706). -/
def State.countDown (s : State) : State := { s with lat := s.lat - 1 }

/-- The completing edge: `RSP` takes the response and `ST` becomes `DONE` (rule R705). -/
def State.complete (s : State) (r : Response) : State := { s with st := .done, rsp := r, lat := 0 }

/-- The completing edge of an operation with that outcome. -/
def State.respond (s : State) (d : Except FaultStatus Delivery) : State := s.complete (responseOf s.build d)

/-- The edge that takes the response (rule R704). -/
def State.takeResponse (s : State) : State := { s with st := .idle }

/-! ## Outputs -/

/-- The output levels while `rst` is at a level (rules R100, R106, R108, R700). `rsp_word` and `rsp_z` are
unspecified whenever `rsp_valid = 0` (IMP2; log 8). -/
def State.outputsWith (s : State) (rst : Bool) : Outputs :=
  let valid := decide (s.st = .done) && !rst
  { reqReady := decide (s.st = .idle) && !rst
    rspValid := valid
    rspWord := if valid then s.rsp.word else (Config.idleResponse s.edges).word
    rspZ := if valid then s.rsp.z else cutBundle s.build (Config.idleResponse s.edges).z }

/-- The output levels before the next edge, with `rst` at the level that edge samples (log 9). -/
def State.outputs (s : State) : Outputs := s.outputsWith s.pinsNow.rst

end Sys2Proof.Machine
end

