-- ==== Sys2Proof/Machine/AddCommands.lean ====
section
/-! DEFINITION. The four commands (41_add.md) and the pseudocode they share. -/

namespace Sys2Proof.Machine

/-! ## The cases of AddCore -/

/-- `special(v)` (rule R507). -/
def special (v : Flt) : Except FaultStatus Delivery :=
  .ok { z := v, ord := .equal, rb := false, sb := false, inc := false, regime := .none }

/-- A rounded value delivered with its regime. -/
def deliverRounded (r : Except FaultStatus Rounded) (g : Regime) : Except FaultStatus Delivery :=
  match r with
  | .error f => .error f
  | .ok z => .ok { z := z.z, ord := z.ord, rb := z.rb, sb := z.sb, inc := z.inc, regime := g }

/-- `ZeroSum(sx, sy, m)` (rule R505): the sign of the sum of two zeros. -/
def zeroSum (sx sy : Bool) (m : RoundMode) : Flt :=
  if sx = sy then .zero sx else if m = .floor then .zero true else .zero false

/-- `single(f, p, m)`: a finite operand and a zero (rules R456, R506). -/
def single (b : Build) (s : Bool) (a : Magnitude) (p : Nat) (m : RoundMode) : Except FaultStatus Delivery :=
  deliverRounded (roundSOR b.emax a.m a.ulp s p m) .general

/-- `sum(x, y, p, m)`: two finite operands of one sign (rules R402, R430, R508). -/
def sum (b : Build) (s : Bool) (x y : Magnitude) (p : Nat) (m : RoundMode) : Except FaultStatus Delivery :=
  deliverRounded (roundSOR b.emax (exactSum x y).n (exactSum x y).q s p m) (regime b.w x.p y.p p)

/-- `AddCore(x, y, p, m)` (rule R500). -/
def addCore (b : Build) (p : Nat) (m : RoundMode) : Flt → Flt → Except FaultStatus Delivery
  | .nan, _ => special .nan
  | _, .nan => special .nan
  | .inf sx, .inf sy => special (if sx = sy then .inf sx else .nan)
  | .inf sx, _ => special (.inf sx)
  | _, .inf sy => special (.inf sy)
  | .zero sx, .zero sy => special (zeroSum sx sy m)
  | .zero _, .fin s e py my => single b s ⟨e, py, my⟩ p m
  | .fin s e px mx, .zero _ => single b s ⟨e, px, mx⟩ p m
  | .fin sx ex px mx, .fin sy ey py my =>
    if sx ≠ sy then .error .subRequired else sum b sx ⟨ex, px, mx⟩ ⟨ey, py, my⟩ p m

/-! ## What each command computes from its operand bundles -/

/-- ADD_PREC_ROUND (rule R510). -/
def addPrecRoundOf (b : Build) (tprec : Nat) (rm : RoundMode) (X Y : Nat) : Except FaultStatus Delivery :=
  withPrecision b tprec (withOperands b X Y (fun x y => addCore b tprec rm x y))

/-- ADD_PREC (rule R511). -/
def addPrecOf (b : Build) (tprec : Nat) (X Y : Nat) : Except FaultStatus Delivery :=
  withPrecision b tprec (withOperands b X Y (fun x y => addCore b tprec .nearest x y))

/-- ADD_ROUND (rule R512). -/
def addRoundOf (b : Build) (rm : RoundMode) (X Y : Nat) : Except FaultStatus Delivery :=
  withOperands b X Y (fun x y => addCore b (operandPrecision x y) rm x y)

/-- ADD (rule R513). -/
def addOf (b : Build) (X Y : Nat) : Except FaultStatus Delivery :=
  withOperands b X Y (fun x y => addCore b (operandPrecision x y) .nearest x y)

/-! ## The meanings: the completing edge of each command -/

/-- ADD_PREC_ROUND completes (rules R510, R705). -/
def execAddPrecRound (tprec : Nat) (rm : RoundMode) (s : State) : Host.Outcome State Fault Refusal :=
  .next (s.respond (addPrecRoundOf s.build tprec rm s.req.x s.req.y))

/-- ADD_PREC completes (rules R511, R705). -/
def execAddPrec (tprec : Nat) (s : State) : Host.Outcome State Fault Refusal :=
  .next (s.respond (addPrecOf s.build tprec s.req.x s.req.y))

/-- ADD_ROUND completes (rules R512, R705). -/
def execAddRound (rm : RoundMode) (s : State) : Host.Outcome State Fault Refusal :=
  .next (s.respond (addRoundOf s.build rm s.req.x s.req.y))

/-- ADD completes (rules R513, R705). -/
def execAdd (s : State) : Host.Outcome State Fault Refusal :=
  .next (s.respond (addOf s.build s.req.x s.req.y))

/-! ## Execute on the raw command word -/

/-- `Execute(CMD, X, Y)`, the pseudocode of rule R500 on the fields of the command word. -/
def execute (b : Build) (c : Word32) (X Y : Nat) : Except FaultStatus Delivery :=
  if illegal c then .error .illegalCommand
  else if bitAt (opcOf c) 1 = false ∧ (tprecOf c < 1 ∨ b.pMax < tprecOf c) then .error .invalidPrecision
  else
    withOperands b X Y (fun x y =>
      addCore b (select (opcOf c) (rmOf c) (tprecOf c) x y).1 (select (opcOf c) (rmOf c) (tprecOf c) x y).2 x y)

/-- `Respond(REQ)` (rule R705). -/
def respondTo (b : Build) (r : Request) : Response := responseOf b (execute b r.cmd r.x r.y)

end Sys2Proof.Machine
end

