-- ==== Sys2Proof/Machine/Dispatch.lean ====
section
/-! DEFINITION. One arm per command. -/

namespace Sys2Proof.Machine

def exec (i : Instr) (s : State) : Host.Outcome State Fault Refusal :=
  match i with
  | .addPrecRound tprec rm => Sys2Proof.Machine.execAddPrecRound tprec rm s
  | .addPrec tprec => Sys2Proof.Machine.execAddPrec tprec s
  | .addRound rm => Sys2Proof.Machine.execAddRound rm s
  | .add => Sys2Proof.Machine.execAdd s

end Sys2Proof.Machine
end

