-- ==== Sys2Proof/Machine/Edge.lean ====
section
/-! DEFINITION. One rising edge of `clk`: which operation of Machine/Ops.lean happens (70_reset_and_hazards.md). -/

namespace Sys2Proof.Machine

/-- Time goes on after an outcome that is a next state. -/
def tickOutcome : Host.Outcome State Fault Refusal → Host.Outcome State Fault Refusal
  | .next s => .next s.tick
  | .fault f => .fault f
  | .refused r => .refused r

/-- The completing edge: the latched command runs, or the illegal command word is answered (rules R304, R705). -/
def completingEdge (s : State) : Host.Outcome State Fault Refusal :=
  match decode s.req.cmd with
  | .ok i => exec i s
  | .error _ => .next (s.respond (.error .illegalCommand))

/-- What an edge with `rst = 0` does (rules R702, R704 to R708). -/
def runningEdge (s : State) : Host.Outcome State Fault Refusal :=
  match s.st with
  | .idle => .next (if s.pinsNow.reqValid then s.accept s.pinsNow else s)
  | .busy => if s.lat ≤ 1 then completingEdge s else .next s.countDown
  | .done => .next (if s.pinsNow.rspReady then s.takeResponse else s)

/-- One rising edge (rules R100, R700). -/
def edge (s : State) : Host.Outcome State Fault Refusal :=
  if s.pinsNow.rst then .next s.resetEdge.tick else tickOutcome (runningEdge s)

/-- The instruction whose bits are the low `nbits` bits of `w` placed so that the very next edge completes it: an
operation is in `BUSY` with that command word, its last edge is due, and the next edge is no reset edge (log 10). -/
def placeCommand (s : State) (nbits w : Nat) : State :=
  { s with
    st := .busy
    req := { s.req with cmd := BitVec.ofNat 32 (w % 2 ^ nbits) }
    lat := 1
    host := { s.pinsNow with rst := false } :: s.host.tail }

end Sys2Proof.Machine
end

