-- ==== Sys2Proof/Machine/Step.lean ====
section
/-! DEFINITION. One step of the machine: one rising edge of a legal build. -/

namespace Sys2Proof.Machine

/-- One rising edge; a build outside the legal parameters is refused (IMP5, IMP6; log 12). -/
def step (s : State) : Host.Outcome State Fault Refusal :=
  if s.build.Legal then edge s else .refused .illegalBuild

/-- The state in which the next step runs the command whose bits are `w` (log 10). -/
def State.withFetchWord (s : State) (nbits w : Nat) : State := placeCommand s nbits w

end Sys2Proof.Machine
end

