-- ==== Sys2Proof/Machine/Assembler.lean ====
section
/-! DEFINITION. The written form of Floats and commands (30_encoding.md section 4), on lists of characters. -/

namespace Sys2Proof.Machine

/-! ## Numerals (rule R330; log 15) -/

/-- The value of a digit, letters in either case. -/
def digitValue (c : Char) : Option Nat :=
  if '0' ≤ c ∧ c ≤ '9' then some (c.toNat - 48)
  else if 'a' ≤ c ∧ c ≤ 'f' then some (c.toNat - 87)
  else if 'A' ≤ c ∧ c ≤ 'F' then some (c.toNat - 55)
  else none

/-- The number a run of digits writes after `acc`; a character that is no digit of the base gives `none`. -/
def digitsFrom (base : Nat) : Nat → List Char → Option Nat
  | acc, [] => some acc
  | acc, c :: cs =>
    match digitValue c with
    | none => none
    | some d => if d < base then digitsFrom base (acc * base + d) cs else none

/-- A nonempty run of digits. -/
def parseNat (base : Nat) (cs : List Char) : Option Nat := if cs = [] then none else digitsFrom base 0 cs

/-- A decimal integer with an optional sign. -/
def parseInt : List Char → Option Int
  | '+' :: cs => (parseNat 10 cs).map (fun n => (n : Int))
  | '-' :: cs => (parseNat 10 cs).map (fun n => -(n : Int))
  | cs => (parseNat 10 cs).map (fun n => (n : Int))

/-- The text before the first `c`, and the text after it if there is one. -/
def splitAtChar (c : Char) (cs : List Char) : List Char × Option (List Char) :=
  match cs.dropWhile (fun x => x != c) with
  | [] => (cs, none)
  | _ :: rest => (cs.takeWhile (fun x => x != c), some rest)

/-- Digits with an optional point: the number without its point, and how many digits stand after the point. -/
def parseMantissa (base : Nat) (cs : List Char) : Option (Nat × Nat) :=
  match splitAtChar '.' cs with
  | (whole, none) => (parseNat base whole).map (fun n => (n, 0))
  | (whole, some part) =>
    if whole = [] ∨ part = [] then none else (parseNat base (whole ++ part)).map (fun n => (n, part.length))

/-- A numeral `<v>` (rule R330): decimal, binary with an optional base-2 exponent, or hexadecimal with a base-2
exponent. A decimal numeral whose value is no dyadic rational is representable at no precision. -/
def parseNumeral : List Char → Option Exact
  | '0' :: 'b' :: cs =>
    match splitAtChar 'p' cs with
    | (digits, none) => (parseMantissa 2 digits).map (fun v => ⟨v.1, -(v.2 : Int)⟩)
    | (digits, some ex) =>
      match parseMantissa 2 digits, parseInt ex with
      | some v, some k => some ⟨v.1, k - v.2⟩
      | _, _ => none
  | '0' :: 'x' :: cs =>
    match splitAtChar 'p' cs with
    | (_, none) => none
    | (digits, some ex) =>
      match parseMantissa 16 digits, parseInt ex with
      | some v, some k => some ⟨v.1, k - 4 * v.2⟩
      | _, _ => none
  | cs =>
    match parseMantissa 10 cs with
    | some v => if v.1 % 5 ^ v.2 = 0 then some ⟨v.1 / 5 ^ v.2, -(v.2 : Int)⟩ else none
    | none => none

/-! ## Literals -/

/-- The finite Float of a value at a precision: the value is not zero and is exactly representable
(rule R330). -/
def finiteLiteral (s : Bool) (v : Exact) (p : Nat) : Option Flt :=
  if v.n = 0 ∨ p = 0 then none
  else if (cutTo v.n p).r = true ∨ (cutTo v.n p).st = true then none
  else some (.fin s (v.q + bitlen v.n - 1) p (cutTo v.n p).t)

/-- `<v>#<p>` without its sign. -/
def parseFinite (s : Bool) (cs : List Char) : Option Flt :=
  match splitAtChar '#' cs with
  | (_, none) => none
  | (v, some p) =>
    match parseNumeral v, parseNat 10 p with
    | some v, some p => finiteLiteral s v p
    | _, _ => none

/-- A Float literal (rule R330). -/
def parseLiteral (cs : List Char) : Option Flt :=
  if cs = ['N', 'a', 'N'] then some .nan
  else if cs = ['+', 'I', 'n', 'f'] then some (.inf false)
  else if cs = ['-', 'I', 'n', 'f'] then some (.inf true)
  else if cs = ['+', '0'] then some (.zero false)
  else if cs = ['-', '0'] then some (.zero true)
  else
    match cs with
    | '-' :: rest => parseFinite true rest
    | _ => parseFinite false cs

/-! ## Commands (rules R331, R333; log 17) -/

/-- An operand of a command as written: a literal, or a variable of the host (rule R331). -/
inductive SourceOperand where
  | literal (v : Flt)
  | variable (name : List Char)
  deriving DecidableEq, Repr

/-- The written name of a rounding mode (rule R331). -/
def modeName : RoundMode → List Char
  | .nearest => ['R', 'N', 'E']
  | .floor => ['F', 'L', 'O', 'O', 'R']
  | .ceil => ['C', 'E', 'I', 'L']
  | .trunc => ['T', 'R', 'U', 'N', 'C']
  | .away => ['A', 'W', 'A', 'Y']
  | .exact => ['E', 'X', 'A', 'C', 'T']

/-- The rounding mode of a written name. -/
def parseMode (cs : List Char) : Option RoundMode :=
  [RoundMode.nearest, .floor, .ceil, .trunc, .away, .exact].find? (fun m => modeName m == cs)

/-- Whether a character may stand in a variable's name. -/
def nameChar (c : Char) : Bool := c.isAlpha || c.isDigit || c == '_'

/-- A variable's name: a letter, then letters, digits and underscores. -/
def isName : List Char → Bool
  | [] => false
  | c :: cs => c.isAlpha && cs.all nameChar

/-- Text without the spaces around it. -/
def trimSpaces (cs : List Char) : List Char :=
  ((cs.dropWhile (fun c => c == ' ')).reverse.dropWhile (fun c => c == ' ')).reverse

/-- The fields of a text between commas, the first field first. -/
def commaFields (cs : List Char) : List (List Char) :=
  cs.foldr (fun c fs => if c == ',' then [] :: fs else (c :: fs.headD []) :: fs.tail) [[]]

/-- An operand as written; a literal comes before a variable of the same spelling. -/
def parseOperand (cs : List Char) : Option SourceOperand :=
  match parseLiteral cs with
  | some v => some (.literal v)
  | none => if isName cs then some (.variable cs) else none

/-- A target precision `#<p>`, which must fit the field `TPREC` (rule R300). -/
def parsePrecision : List Char → Option Nat
  | '#' :: cs =>
    match parseNat 10 cs with
    | some p => if p < 16777216 then some p else none
    | none => none
  | _ => none

/-- A command word's form with its mnemonic's name and its operand fields (rule R331). -/
def parseForm (name : List Char) (fields : List (List Char)) : Option (Instr × SourceOperand × SourceOperand) :=
  let withPair (i : Instr) (x y : List Char) :=
    match parseOperand x, parseOperand y with
    | some x, some y => some (i, x, y)
    | _, _ => none
  match name, fields with
  | 'A' :: 'D' :: 'D' :: '.' :: 'P' :: 'R' :: '.' :: rm, [p, x, y] =>
    match parseMode rm, parsePrecision p with
    | some m, some p => withPair (.addPrecRound p m) x y
    | _, _ => none
  | ['A', 'D', 'D', '.', 'P'], [p, x, y] =>
    match parsePrecision p with
    | some p => withPair (.addPrec p) x y
    | none => none
  | 'A' :: 'D' :: 'D' :: '.' :: 'R' :: '.' :: rm, [x, y] =>
    match parseMode rm with
    | some m => withPair (.addRound m) x y
    | none => none
  | ['A', 'D', 'D'], [x, y] => withPair .add x y
  | _, _ => none

/-- A command with its operands (rule R331). -/
def parseCommand (cs : List Char) : Option (Instr × SourceOperand × SourceOperand) :=
  match splitAtChar ' ' (trimSpaces cs) with
  | (_, none) => none
  | (name, some rest) => parseForm name ((commaFields rest).map trimSpaces)

end Sys2Proof.Machine
end

