-- ==== Sys2Proof/Machine/Script.lean ====
section
/-! DEFINITION. Host scripts (rule R333). A script is the host's: its variables are no state of MWADD. Each line
waits for its response before the next request, so a line is the response of its request (rules R207, R210). -/

namespace Sys2Proof.Machine

/-- A line `target <- command` (rule R333). -/
structure ScriptLine where
  target : List Char
  command : Instr
  x : SourceOperand
  y : SourceOperand
  deriving DecidableEq, Repr

/-- The variables the host has set, the newest first. -/
abbrev Variables := List (List Char × Flt)

/-- How a script ends. -/
inductive ScriptEnd where
  /-- The response of the last line was taken. -/
  | finished
  /-- A response had a status other than OK. -/
  | stopped (status : Nat)
  /-- A line reads a variable that no line has set; the spec gives this no meaning (log 16). -/
  | unsetVariable
  deriving DecidableEq, Repr

/-- What a script leaves: the variables, the responses in order, and how it ended. -/
structure ScriptRun where
  vars : Variables
  responses : List Response
  ended : ScriptEnd
  deriving DecidableEq, Repr

/-- The text of a line. -/
def parseLine (cs : List Char) : Option ScriptLine :=
  match splitAtChar '<' cs with
  | (t, some ('-' :: rest)) =>
    match isName (trimSpaces t), parseCommand rest with
    | true, some (i, x, y) => some ⟨trimSpaces t, i, x, y⟩
    | _, _ => none
  | _ => none

/-- The value of an operand. -/
def operandValue (vars : Variables) : SourceOperand → Option Flt
  | .literal v => some v
  | .variable n => (vars.find? (fun b => b.1 == n)).map Prod.snd

/-- The request of a line: the command word and the canonical bundles of its operands (rules R313, R331). -/
def lineRequest (b : Build) (i : Instr) (x y : Flt) : Request :=
  { cmd := encode i, x := encodeBundle b x, y := encodeBundle b y }

/-- A response put before those of the lines that follow. -/
def ScriptRun.after (r : Response) (rest : ScriptRun) : ScriptRun := { rest with responses := r :: rest.responses }

/-- A script from the variables set so far; it stops at the first status other than OK (rule R333). -/
def runScript (b : Build) : List ScriptLine → Variables → ScriptRun
  | [], vars => { vars := vars, responses := [], ended := .finished }
  | l :: ls, vars =>
    match operandValue vars l.x, operandValue vars l.y with
    | some x, some y =>
      let r := respondTo b (lineRequest b l.command x y)
      if statusOf r.word ≠ 0 then { vars := vars, responses := [r], ended := .stopped (statusOf r.word) }
      else
        match decodeBundle b r.z with
        | some z => (runScript b ls ((l.target, z) :: vars)).after r
        | none => { vars := vars, responses := [r], ended := .stopped 0 }
    | _, _ => { vars := vars, responses := [], ended := .unsetVariable }

end Sys2Proof.Machine
end

