-- ==== Sys2Proof/Safety.lean ====
section
/-! DEFINITION. The terms in which claims about MWADD are made: the numbers Floats denote, what a command asks for,
and the invariant of a safe state. Nothing here is part of the machine. -/

namespace Sys2Proof

/-- The number `n * 2^q` (rule R400). -/
def scaled (n : Nat) (q : Int) : ℚ := (n : ℚ) * 2 ^ q

/-- A magnitude with a sign, `true` for negative (rule R13). -/
def signed (s : Bool) (x : ℚ) : ℚ := if s then -x else x

/-- `value(z)` (rule R110); NaN and the infinities denote no number. -/
def Flt.toRat : Flt → Option ℚ
  | .nan => none
  | .inf _ => none
  | .zero _ => some 0
  | .fin s e p m => some (signed s (scaled m (e - p + 1)))

/-- The set `R_p` of rule R434. -/
def Representable (p : Nat) (x : ℚ) : Prop :=
  ∃ (m : Nat) (k : Int), 2 ^ (p - 1) ≤ m ∧ m < 2 ^ p ∧ x = scaled m k

namespace Machine

/-- A finite operand's legal significand (rule R111). -/
abbrev Magnitude.Legal (a : Magnitude) : Prop := 1 ≤ a.p ∧ 2 ^ (a.p - 1) ≤ a.m ∧ a.m < 2 ^ a.p

/-- The target precision a command asks for (rules R501, R510 to R513). -/
def targetOf (i : Instr) (x y : Flt) : Nat :=
  match i with
  | .addPrecRound tprec _ => tprec
  | .addPrec tprec => tprec
  | .addRound _ => operandPrecision x y
  | .add => operandPrecision x y

/-- The rounding mode a command asks for (rules R501, R510 to R513). -/
def modeOf : Instr → RoundMode
  | .addPrecRound _ rm => rm
  | .addPrec _ => .nearest
  | .addRound rm => rm
  | .add => .nearest

/-- The sign and the exact value of the operands that AddCore rounds: two finite operands of one sign, or a zero and a
finite operand (rules R402, R506, R508). -/
def exactValueOf : Flt → Flt → Option (Bool × Exact)
  | .zero _, .fin s e p m => some (s, ⟨m, (Magnitude.mk e p m).ulp⟩)
  | .fin s e p m, .zero _ => some (s, ⟨m, (Magnitude.mk e p m).ulp⟩)
  | .fin s e p m, .fin s' e' p' m' => if s = s' then some (s, exactSum ⟨e, p, m⟩ ⟨e', p', m'⟩) else none
  | _, _ => none

/-- The operands of the latched request decode to `x` and `y`. -/
abbrev State.Holds (s : State) (x y : Flt) : Prop :=
  decodeBundle s.build s.req.x = some x ∧ decodeBundle s.build s.req.y = some y

/-- The next edge completes the operation in `BUSY` (rules R705, R706). -/
abbrev State.Completes (s : State) : Prop :=
  s.build.Legal ∧ s.st = .busy ∧ s.lat ≤ 1 ∧ s.pinsNow.rst = false

/-- The invariant of a safe state: the build is legal, the latches hold what their ports can carry, an operation in
progress has between 1 and `LAT_MAX` edges to go, and a presented response is that of the latched request. -/
abbrev State.Inv (s : State) : Prop :=
  s.build.Legal ∧
  s.req.x < 2 ^ s.build.bundleBits ∧ s.req.y < 2 ^ s.build.bundleBits ∧ s.rsp.z < 2 ^ s.build.bundleBits ∧
  (s.st = .busy → 1 ≤ s.lat ∧ s.lat ≤ s.build.latMax) ∧
  (s.st = .done → s.rsp = respondTo s.build s.req)

end Machine
end Sys2Proof
end

