-- ==== Sys2Proof/Certificates/Slice0/Obligations.lean ====
section
/-! DEFINITION. The statements for the provers. Each docstring says which rule of spec/ it formalises. -/

open Sys2Proof Sys2Proof.Machine

/-! ## Encodings -/

/-- Decoding the command word of a well-formed command gives the command back. -/
def Obligations.DecodeEncodeEveryCommand : Prop :=
  ∀ i : Instr, i.WellFormed → decode (encode i) = .ok i

/-- Every legal command word is the encoding of the command it decodes to: each word has one meaning. -/
def Obligations.LegalWordIsEncodingOfItsCommand : Prop :=
  ∀ (c : Word32) (i : Instr), decode c = .ok i → i.WellFormed ∧ encode i = c

/-- R304: the decoder rejects exactly the words with one of the conditions (a) to (e), read from the bits of the
word, and such a word is answered with ILLEGAL_COMMAND whatever the operands are. -/
def Obligations.IllegalWordsAreAnsweredIllegal : Prop :=
  (∀ c : Word32, (∃ e, decode c = .error e) ↔
    (4 ≤ (c.extractLsb' 0 4).toNat ∨ c.getLsbD 7 = true ∨ 6 ≤ (c.extractLsb' 4 3).toNat ∨
      (c.getLsbD 0 = true ∧ c.extractLsb' 4 3 ≠ 0#3) ∨ (c.getLsbD 1 = true ∧ c.extractLsb' 8 24 ≠ 0#24))) ∧
  (∀ s : State, s.Completes → (∃ e, decode s.req.cmd = .error e) →
    step s = .next (s.complete { word := 1, z := 0 }).tick)

/-- Words written out from the fields of R300 to R303 decode to the commands they stand for; the six RM codes of
ADD_ROUND are among them. -/
def Obligations.SpecCommandWordsDecode : Prop :=
  decode 0b00000000000000000000000100000000#32 = .ok (.addPrecRound 1 .nearest) ∧
  decode 0b00000000000000010000000000100000#32 = .ok (.addPrecRound 256 .ceil) ∧
  decode 0b00000000000000000000001000000001#32 = .ok (.addPrec 2) ∧
  decode 0b00000000000000000000000000000010#32 = .ok (.addRound .nearest) ∧
  decode 0b00000000000000000000000000010010#32 = .ok (.addRound .floor) ∧
  decode 0b00000000000000000000000000100010#32 = .ok (.addRound .ceil) ∧
  decode 0b00000000000000000000000000110010#32 = .ok (.addRound .trunc) ∧
  decode 0b00000000000000000000000001000010#32 = .ok (.addRound .away) ∧
  decode 0b00000000000000000000000001010010#32 = .ok (.addRound .exact) ∧
  decode 0b00000000000000000000000000000011#32 = .ok .add

/-- `CMD = {TPREC[23:0], 0, RM[2:0], OPC[3:0]}` for each of the four forms, as a concatenation of bits, with the six
codes of R303. -/
def Obligations.CommandWordIsFieldConcatenation : Prop :=
  ∀ (p : Nat) (m : RoundMode), p < 2 ^ 24 →
    let rm : BitVec 3 :=
      match m with
      | .nearest => 0b000#3
      | .floor => 0b001#3
      | .ceil => 0b010#3
      | .trunc => 0b011#3
      | .away => 0b100#3
      | .exact => 0b101#3
    encode (.addPrecRound p m) = BitVec.ofNat 24 p ++ 0#1 ++ rm ++ 0#4 ∧
    encode (.addPrec p) = BitVec.ofNat 24 p ++ 0#1 ++ 0#3 ++ 1#4 ∧
    encode (.addRound m) = 0#24 ++ 0#1 ++ rm ++ 2#4 ∧
    encode .add = 0#24 ++ 0#1 ++ 0#3 ++ 3#4

/-- R313: encoding a legal Float gives a bundle of `BW` bits that decodes to it. -/
def Obligations.BundleDecodeEncode : Prop :=
  ∀ (b : Build) (z : Flt), b.Legal → z.Legal b →
    encodeBundle b z < 2 ^ b.bundleBits ∧ decodeBundle b (encodeBundle b z) = some z

/-- Every Float has exactly one legal bundle: a bundle that decodes is the encoding of the Float, which is legal. -/
def Obligations.LegalBundleIsCanonical : Prop :=
  ∀ (b : Build) (B : Nat) (z : Flt), b.Legal → B < 2 ^ b.bundleBits → decodeBundle b B = some z →
    z.Legal b ∧ encodeBundle b z = B

/-- R310, R311 and R112: the bundle of a legal Float, bit by bit. It has `BW` bits; its header is
`{0, SGN, CLS[1:0], PREC[23:0], EXP[31:0]}` with CLS 00 for Zero, 01 for Finite, 10 for Infinity and 11 for NaN; a
special value has every other bit 0. The words of a Finite value hold `M << pad` in the first `n = ceil(p/W)` of them:
their number shifted right by the padding is `M`, the top bit of word `n - 1` is set, the padding at the bottom of
word 0 is zero, and the words from `n` on are zero. -/
def Obligations.SignificandIsLeftAligned : Prop :=
  ∀ (b : Build) (z : Flt), b.Legal → z.Legal b →
    let B := encodeBundle b z
    let S := fun i => B / 2 ^ (64 + b.w * i) % 2 ^ b.w
    B < 2 ^ (64 + b.nwMax * b.w) ∧
    match z with
    | .nan => BitVec.ofNat 64 B = 0#5 ++ 0#1 ++ 0b11#2 ++ 0#24 ++ 0#32 ∧ B < 2 ^ 64
    | .inf s => BitVec.ofNat 64 B = 0#5 ++ BitVec.ofBool s ++ 0b10#2 ++ 0#24 ++ 0#32 ∧ B < 2 ^ 64
    | .zero s => BitVec.ofNat 64 B = 0#5 ++ BitVec.ofBool s ++ 0b00#2 ++ 0#24 ++ 0#32 ∧ B < 2 ^ 64
    | .fin s e p m =>
      let n := (p + b.w - 1) / b.w
      let sigv := ∑ i ∈ Finset.range n, S i * 2 ^ (b.w * i)
      BitVec.ofNat 64 B = 0#5 ++ BitVec.ofBool s ++ 0b01#2 ++ BitVec.ofNat 24 p ++ BitVec.ofInt 32 e ∧
      p ≤ n * b.w ∧ n * b.w - p < b.w ∧ n ≤ b.nwMax ∧
      m = sigv / 2 ^ (n * b.w - p) ∧ sigv % 2 ^ (n * b.w - p) = 0 ∧
      (S (n - 1)).testBit (b.w - 1) = true ∧ S 0 % 2 ^ (n * b.w - p) = 0 ∧
      (∀ i, n ≤ i → i < b.nwMax → S i = 0)

/-- R320 to R323: the fields of a response word, by their bit positions, with every code as a number, for a delivered
result and for a failure. -/
def Obligations.ResponseWordFields : Prop :=
  (∀ (b : Build) (d : Delivery),
    let r := (okResponse b d).word
    r.extractLsb' 0 4 = 0#4 ∧
    r.extractLsb' 4 2 =
      (match d.ord with
        | .equal => 0b00#2
        | .greater => 0b01#2
        | .less => 0b11#2) ∧
    r.extractLsb' 6 3 =
      (match d.regime with
        | .none => 0#3
        | .ltW => 1#3
        | .eqW => 2#3
        | .gtWLt2W => 3#3
        | .eq2W => 4#3
        | .gt2WLt3W => 5#3
        | .ge3W => 6#3
        | .general => 7#3) ∧
    r.getLsbD 9 = d.rb ∧ r.getLsbD 10 = d.sb ∧ r.getLsbD 11 = d.inc ∧ r.extractLsb' 12 20 = 0#20) ∧
  (∀ f : FaultStatus,
    let r := (faultResponse f).word
    r.extractLsb' 0 4 =
      (match f with
        | .illegalCommand => 1#4
        | .invalidPrecision => 2#4
        | .invalidOperand => 3#4
        | .inexact => 4#4
        | .expOverflow => 5#4
        | .subRequired => 6#4) ∧
    r.extractLsb' 4 28 = 0#28)

/-- R325 and IMP10: a response whose STATUS is not OK has every other bit of its word 0, and `Z = 0`; and the codes
that are never produced are produced for no request. -/
def Obligations.FaultResponsesAndReservedCodes : Prop :=
  ∀ (b : Build) (r : Request),
    (((respondTo b r).word.extractLsb' 0 4).toNat ≠ 0 →
      (respondTo b r).word.extractLsb' 4 28 = 0#28 ∧ (respondTo b r).z = 0) ∧
    statusOf (respondTo b r).word ≤ 6 ∧ ordOf (respondTo b r).word ≠ 2 ∧
      (respondTo b r).word.extractLsb' 12 20 = 0#20

/-! ## The word primitives and the alignment shifter -/

/-- R405: the word adder is exact with its carry. -/
def Obligations.WordAdderIsExact : Prop :=
  ∀ w a b c : Nat, a < 2 ^ w → b < 2 ^ w → c ≤ 1 →
    (adc w a b c).1 < 2 ^ w ∧ (adc w a b c).2 ≤ 1 ∧ (adc w a b c).1 + (adc w a b c).2 * 2 ^ w = a + b + c

/-- R406: the multi-word adder is exact addition on `n` words with a carry out of the top word. -/
def Obligations.MultiWordAdderIsExact : Prop :=
  ∀ (w : Nat) (as bs : List Nat), as.length = bs.length → (∀ a ∈ as, a < 2 ^ w) → (∀ b ∈ bs, b < 2 ^ w) →
    (mwadd w as bs 0).1.length = as.length ∧ (∀ a ∈ (mwadd w as bs 0).1, a < 2 ^ w) ∧ (mwadd w as bs 0).2 ≤ 1 ∧
    wordsValue w (mwadd w as bs 0).1 + (mwadd w as bs 0).2 * 2 ^ (w * as.length)
      = wordsValue w as + wordsValue w bs

/-- R407: adding a unit in the last retained bit carries out of the top word exactly when the significand is all
ones, which leaves zero, and otherwise gives the next significand, left-aligned. -/
def Obligations.IncrementCarriesOnAllOnes : Prop :=
  ∀ w p t : Nat, 0 < w → 1 ≤ p → t < 2 ^ p →
    let words := toWords w (wordsFor w p) (t * 2 ^ padBits w p)
    ((mwinc w words (padBits w p)).2 = 1 ↔ t = 2 ^ p - 1) ∧
    ((mwinc w words (padBits w p)).2 = 1 → wordsValue w (mwinc w words (padBits w p)).1 = 0) ∧
    ((mwinc w words (padBits w p)).2 = 0 →
      wordsValue w (mwinc w words (padBits w p)).1 = (t + 1) * 2 ^ padBits w p)

/-- R410: the alignment shifter; the round bit is the most significant discarded bit, the sticky bit the OR of the
others, and beyond `d = p` only the sticky bit is left (the rule's pseudocode; one worked example of it says
otherwise, log 5). -/
def Obligations.AlignKeepsRoundAndSticky : Prop :=
  ∀ m p d : Nat, 1 ≤ p → 2 ^ (p - 1) ≤ m → m < 2 ^ p →
    (d = 0 → align m p d = ⟨m, false, false⟩) ∧
    (1 ≤ d → d ≤ p →
      (align m p d).t = m / 2 ^ d ∧ ((align m p d).r = true ↔ 2 ^ (d - 1) ≤ m % 2 ^ d) ∧
      ((align m p d).st = true ↔ m % 2 ^ d ≠ 0 ∧ m % 2 ^ d ≠ 2 ^ (d - 1))) ∧
    (p < d → align m p d = ⟨0, false, true⟩)

/-! ## The rounding engine and the specification of record -/

/-- R421 to R427: the six increment decisions and the Ordering. -/
def Obligations.RoundingEngineDecisions : Prop :=
  ∀ lsb r st s : Bool,
    (reng lsb r st s .exact = if r || st then .error .inexact else .ok (false, .equal)) ∧
    (∀ m : RoundMode, m ≠ .exact →
      ∃ inc ord, reng lsb r st s m = .ok (inc, ord) ∧
        (m = .trunc → inc = false) ∧ (m = .away → inc = (r || st)) ∧
        (m = .floor → inc = ((r || st) && s)) ∧ (m = .ceil → inc = ((r || st) && !s)) ∧
        (m = .nearest → inc = (r && (st || lsb))) ∧
        ((r || st) = false → ord = .equal) ∧
        ((r || st) = true → inc = !s → ord = .greater) ∧
        ((r || st) = true → inc = s → ord = .less))

/-- R434, TRUNC and AWAY: the greatest representable magnitude not above the exact one, and the least not below
it. -/
def Obligations.TruncAndAwayBracketTheExactValue : Prop :=
  ∀ (emax : Int) (n : Nat) (q : Int) (s : Bool) (p : Nat) (r : Rounded), 0 < n → 1 ≤ p →
    (roundSOR emax n q s p .trunc = .ok r → ∃ e t, r.z = .fin s e p t ∧
      IsGreatest {x | Representable p x ∧ x ≤ scaled n q} (scaled t (e - p + 1))) ∧
    (roundSOR emax n q s p .away = .ok r → ∃ e t, r.z = .fin s e p t ∧
      IsLeast {x | Representable p x ∧ scaled n q ≤ x} (scaled t (e - p + 1)))

/-- R434, FLOOR and CEIL: the nearest representable number on the side the mode names, with the sign. -/
def Obligations.FloorAndCeilAreDirected : Prop :=
  ∀ (emax : Int) (n : Nat) (q : Int) (s : Bool) (p : Nat) (r : Rounded), 0 < n → 1 ≤ p →
    (roundSOR emax n q s p .floor = .ok r → ∃ z, r.z.toRat = some z ∧
      IsGreatest {x | Representable p |x| ∧ x ≤ signed s (scaled n q)} z) ∧
    (roundSOR emax n q s p .ceil = .ok r → ∃ z, r.z.toRat = some z ∧
      IsLeast {x | Representable p |x| ∧ signed s (scaled n q) ≤ x} z)

/-- R434, NEAREST: no representable magnitude is nearer; of two at the same distance the one with the even
significand is delivered when `p >= 2`, the larger one when `p = 1`. -/
def Obligations.NearestTiesToEven : Prop :=
  ∀ (emax : Int) (n : Nat) (q : Int) (s : Bool) (p : Nat) (r : Rounded), 0 < n → 1 ≤ p →
    roundSOR emax n q s p .nearest = .ok r →
    ∃ e t, r.z = .fin s e p t ∧ Representable p (scaled t (e - p + 1)) ∧
      ∀ y, Representable p y →
        |scaled t (e - p + 1) - scaled n q| ≤ |y - scaled n q| ∧
        (|y - scaled n q| = |scaled t (e - p + 1) - scaled n q| → y ≠ scaled t (e - p + 1) →
          (2 ≤ p → t % 2 = 0) ∧ (p = 1 → y < scaled t (e - p + 1)))

/-- R434 and R516, EXACT: INEXACT exactly when the exact value is not representable; a representable value whose
exponent does not exceed `EMAX` is delivered (R433 says what happens above it); a delivered value is exact. -/
def Obligations.ExactModeSucceedsIffRepresentable : Prop :=
  ∀ (emax : Int) (n : Nat) (q : Int) (s : Bool) (p : Nat), 0 < n → 1 ≤ p →
    (roundSOR emax n q s p .exact = .error .inexact ↔ ¬ Representable p (scaled n q)) ∧
    (Representable p (scaled n q) → q + bitlen n - 1 ≤ emax → ∃ r, roundSOR emax n q s p .exact = .ok r) ∧
    (∀ r, roundSOR emax n q s p .exact = .ok r →
      ∃ e t, r.z = .fin s e p t ∧ scaled t (e - p + 1) = scaled n q ∧ r.ord = .equal ∧ r.inc = false)

/-- R434, last paragraph: in every mode the result is less than one unit in the last place (of the exponent before
rounding) from the exact value. R324 and R430: with `f` what the exact magnitude has above the multiple of that unit
below it, RB says that `f` is at least half a unit, SB that `f` is neither nothing nor half a unit, and INC that the
delivered magnitude is above the exact one. -/
def Obligations.RoundingErrorBelowOneUlp : Prop :=
  ∀ (emax : Int) (n : Nat) (q : Int) (s : Bool) (p : Nat) (m : RoundMode) (r : Rounded), 0 < n → 1 ≤ p →
    roundSOR emax n q s p m = .ok r →
    let x := scaled n q
    let u := (2 : ℚ) ^ (q + bitlen n - 1 - p + 1)
    let f := x - ⌊x / u⌋ * u
    ∃ e t, r.z = .fin s e p t ∧ 2 ^ (p - 1) ≤ t ∧ t < 2 ^ p ∧ e ≤ emax ∧ |scaled t (e - p + 1) - x| < u ∧
      (r.rb = true ↔ u / 2 ≤ f) ∧ (r.sb = true ↔ f ≠ 0 ∧ f ≠ u / 2) ∧ (r.inc = true ↔ x < scaled t (e - p + 1))

/-- R516: for a mode other than EXACT, a larger target precision never gives a larger error. -/
def Obligations.LargerPrecisionNeverLosesAccuracy : Prop :=
  ∀ (emax : Int) (n : Nat) (q : Int) (s : Bool) (p p' : Nat) (m : RoundMode) (r r' : Rounded) (z z' : ℚ),
    0 < n → 1 ≤ p → p ≤ p' → m ≠ .exact →
    roundSOR emax n q s p m = .ok r → roundSOR emax n q s p' m = .ok r' →
    r.z.toRat = some z → r'.z.toRat = some z' →
    |z' - signed s (scaled n q)| ≤ |z - signed s (scaled n q)|

/-- R433: EXP_OVERFLOW exactly when the exponent after rounding exceeds `EMAX`, the exponent being the one that the
same rounding delivers under a larger bound. -/
def Obligations.OverflowIffExponentExceedsBound : Prop :=
  ∀ (emax : Int) (n : Nat) (q : Int) (s : Bool) (p : Nat) (m : RoundMode),
    roundSOR emax n q s p m = .error .expOverflow ↔
      ∃ (bound : Int) (r : Rounded) (e : Int) (t : Nat),
        roundSOR bound n q s p m = .ok r ∧ r.z = .fin s e p t ∧ emax < e

/-- R431 and R432: the exponent of a sum is between the larger operand's and 2 above it (1 above it when both
precisions are the target precision, as in a fixed kernel), the upper end is met, a result is never below `EMIN`, and
rounding a single operand raises its exponent by at most 1. -/
def Obligations.ResultExponentRange : Prop :=
  (∀ (emax : Int) (x y : Magnitude) (s : Bool) (p : Nat) (m : RoundMode) (r : Rounded),
    x.Legal → y.Legal → 1 ≤ p → roundSOR emax (exactSum x y).n (exactSum x y).q s p m = .ok r →
    ∃ e t, r.z = .fin s e p t ∧ max x.e y.e ≤ e ∧ e ≤ max x.e y.e + 2 ∧
      (x.p = p → y.p = p → e ≤ max x.e y.e + 1) ∧ (∀ emin : Int, emin ≤ x.e → emin ≤ e)) ∧
  (∃ r, roundSOR 10 (exactSum ⟨0, 2, 3⟩ ⟨0, 2, 3⟩).n (exactSum ⟨0, 2, 3⟩ ⟨0, 2, 3⟩).q false 1 .nearest = .ok r ∧
    r.z = .fin false 2 1 1) ∧
  (∀ (emax : Int) (a : Magnitude) (s : Bool) (p : Nat) (m : RoundMode) (r : Rounded), a.Legal → 1 ≤ p →
    roundSOR emax a.m a.ulp s p m = .ok r → ∃ e t, r.z = .fin s e p t ∧ a.e ≤ e ∧ e ≤ a.e + 1)

/-- R456: a single operand at a target precision not below its own is delivered unchanged, in every mode and in
either operand position. -/
def Obligations.SingleOperandIsIdempotent : Prop :=
  ∀ (b : Build) (z s : Bool) (e : Int) (p m t : Nat) (rm : RoundMode),
    (Flt.fin s e p m).Legal b → p ≤ t →
    let d : Delivery :=
      { z := .fin s e t (m * 2 ^ (t - p)), ord := .equal, rb := false, sb := false, inc := false, regime := .general }
    addCore b t rm (.zero z) (.fin s e p m) = .ok d ∧ addCore b t rm (.fin s e p m) (.zero z) = .ok d

/-! ## The kernels -/

/-- R440: each regime exactly under its condition. -/
def Obligations.RegimeConditions : Prop :=
  ∀ w px py p : Nat, 0 < w →
    (regime w px py p = .general ↔ ¬(px = p ∧ py = p)) ∧
    (regime w p p p = .ltW ↔ p < w) ∧ (regime w p p p = .eqW ↔ p = w) ∧
    (regime w p p p = .gtWLt2W ↔ w < p ∧ p < 2 * w) ∧ (regime w p p p = .eq2W ↔ p = 2 * w) ∧
    (regime w p p p = .gt2WLt3W ↔ 2 * w < p ∧ p < 3 * w) ∧ (regime w p p p = .ge3W ↔ 3 * w ≤ p)

/-- R446: the fixed-width kernel on words gives the outputs of the specification of record in every field. -/
def Obligations.FixedKernelEqualsRecord : Prop :=
  ∀ (w : Nat) (emax : Int) (a b : Magnitude) (s : Bool) (p : Nat) (m : RoundMode),
    0 < w → a.Legal → b.Legal → a.p = p → b.p = p → b.e ≤ a.e →
    fixedKernel w emax a b s p m = roundSOR emax (exactSum a b).n (exactSum a b).q s p m

/-- The equivalent realization that keeps discarded bits in the padding gives the same outputs. -/
def Obligations.PaddedKernelEqualsRecord : Prop :=
  ∀ (w : Nat) (emax : Int) (a b : Magnitude) (s : Bool) (p : Nat) (m : RoundMode),
    0 < w → a.Legal → b.Legal → a.p = p → b.p = p → b.e ≤ a.e →
    paddedKernel w emax a b s p m = roundSOR emax (exactSum a b).n (exactSum a b).q s p m

/-- R455: the general kernel gives the outputs of the specification of record in every field, in a bounded frame,
and the bound is met. -/
def Obligations.GeneralKernelEqualsRecord : Prop :=
  (∀ (emax : Int) (a b : Magnitude) (s : Bool) (p pMax : Nat) (m : RoundMode),
    a.Legal → b.Legal → 1 ≤ p → b.e ≤ a.e → a.p ≤ pMax → b.p ≤ pMax → p ≤ pMax →
    generalKernel emax a b s p m = roundSOR emax (exactSum a b).n (exactSum a b).q s p m ∧
    bitlen (compressedSum a b p).n ≤ max (a.p - 1) p + b.p + 1 ∧ max (a.p - 1) p + b.p + 1 ≤ 2 * pMax + 1) ∧
  bitlen (compressedSum ⟨0, 2, 3⟩ ⟨-1, 1, 1⟩ 1).n = max (2 - 1) 1 + 1 + 1

/-- Whatever kernel the dispatcher names, for operands in either order, the datapath gives the outputs of the
specification of record: the choice changes only REGIME. -/
def Obligations.DispatchedKernelEqualsRecord : Prop :=
  ∀ (w : Nat) (emax : Int) (x y : Magnitude) (s : Bool) (p : Nat) (m : RoundMode),
    0 < w → x.Legal → y.Legal → 1 ≤ p →
    dispatchKernel w emax x y s p m = roundSOR emax (exactSum x y).n (exactSum x y).q s p m

/-! ## The commands -/

/-- R502 and R507: a NaN operand gives NaN with an all-zero response word, in every command and mode. -/
def Obligations.NanPropagates : Prop :=
  ∀ (i : Instr) (s : State) (x y : Flt), s.Holds x y → i.PrecisionValid s.build → x = .nan ∨ y = .nan →
    exec i s = .next (s.complete { word := 0, z := encodeBundle s.build .nan })

/-- R503 and R504: two infinities of one sign give it, of opposite signs NaN; an infinity and a zero or finite
operand give the infinity, in either position. -/
def Obligations.InfinitiesAbsorb : Prop :=
  ∀ (i : Instr) (s : State) (x y : Flt), s.Holds x y → i.PrecisionValid s.build →
    (∀ a b, x = .inf a → y = .inf b →
      exec i s = .next (s.complete { word := 0, z := encodeBundle s.build (if a = b then .inf a else .nan) })) ∧
    (∀ a, (x = .inf a ∧ y ≠ .nan ∧ (∀ b, y ≠ .inf b)) ∨ (y = .inf a ∧ x ≠ .nan ∧ (∀ b, x ≠ .inf b)) →
      exec i s = .next (s.complete { word := 0, z := encodeBundle s.build (.inf a) }))

/-- R505: two zeros of one sign give it; of opposite signs they give -0 under FLOOR and +0 in every other mode. -/
def Obligations.ZeroSumSign : Prop :=
  ∀ (i : Instr) (s : State) (a b : Bool), s.Holds (.zero a) (.zero b) → i.PrecisionValid s.build →
    exec i s = .next (s.complete
      { word := 0
        z := encodeBundle s.build
          (.zero (if a = b then a else if modeOf i = .floor then true else false)) })

/-- R506: a zero and a finite operand give the finite operand rounded to the target precision, with its sign and
REGIME GENERAL, in either position. -/
def Obligations.ZeroPlusFiniteIsRounded : Prop :=
  ∀ (i : Instr) (s : State) (z sg : Bool) (e : Int) (p m : Nat) (x y : Flt), s.Holds x y →
    i.PrecisionValid s.build → (x = .zero z ∧ y = .fin sg e p m) ∨ (y = .zero z ∧ x = .fin sg e p m) →
    exec i s = .next (s.complete
      (match roundSOR s.build.emax m (e - p + 1) sg (targetOf i x y) (modeOf i) with
        | .ok r => okResponse s.build
            { z := r.z, ord := r.ord, rb := r.rb, sb := r.sb, inc := r.inc, regime := .general }
        | .error f => faultResponse f))

/-- R508: two finite operands of one sign give the rounding of their exact sum, with the regime of the
dispatcher. -/
def Obligations.SameSignSumIsRounded : Prop :=
  ∀ (i : Instr) (s : State) (sg : Bool) (e e' : Int) (p m p' m' : Nat),
    s.Holds (.fin sg e p m) (.fin sg e' p' m') → i.PrecisionValid s.build →
    let t := targetOf i (.fin sg e p m) (.fin sg e' p' m')
    exec i s = .next (s.complete
      (match roundSOR s.build.emax (exactSum ⟨e, p, m⟩ ⟨e', p', m'⟩).n (exactSum ⟨e, p, m⟩ ⟨e', p', m'⟩).q sg t
          (modeOf i) with
        | .ok r => okResponse s.build
            { z := r.z, ord := r.ord, rb := r.rb, sb := r.sb, inc := r.inc, regime := regime s.build.w p p' t }
        | .error f => faultResponse f))

/-- R402: the exact sum is the mathematical sum of the two magnitudes, and is not zero. -/
def Obligations.ExactSumIsTheSum : Prop :=
  ∀ x y : Magnitude, x.Legal → y.Legal →
    0 < (exactSum x y).n ∧ scaled (exactSum x y).n (exactSum x y).q = scaled x.m x.ulp + scaled y.m y.ulp

/-- Every command completes on two finite operands of one sign, for a mode other than EXACT and exponents two below
`EMAX`: the response has STATUS OK, its bundle decodes to a Float of the target precision, and no number of that
precision lies strictly between it and the sum of the operands. -/
def Obligations.SameSignSumIsDelivered : Prop :=
  ∀ (i : Instr) (s : State) (sg : Bool) (e e' : Int) (p m p' m' : Nat) (xv yv : ℚ), s.build.Legal →
    s.Holds (.fin sg e p m) (.fin sg e' p' m') → i.PrecisionValid s.build → modeOf i ≠ .exact →
    max e e' + 2 ≤ s.build.emax →
    (Flt.fin sg e p m).toRat = some xv → (Flt.fin sg e' p' m').toRat = some yv →
    let t := targetOf i (.fin sg e p m) (.fin sg e' p' m')
    ∃ (u : State) (ez : Int) (mz : Nat) (zv : ℚ), exec i s = .next u ∧ statusOf u.rsp.word = 0 ∧
      decodeBundle u.build u.rsp.z = some (.fin sg ez t mz) ∧ (Flt.fin sg ez t mz).toRat = some zv ∧
      ∀ v, Representable t |v| → ¬((zv < v ∧ v < xv + yv) ∨ (xv + yv < v ∧ v < zv))

/-- EXACT mode completes whenever the sum is representable and in range, and delivers the sum itself. -/
def Obligations.ExactModeDeliversTheSum : Prop :=
  ∀ (i : Instr) (s : State) (sg : Bool) (e e' : Int) (p m p' m' : Nat) (xv yv : ℚ), s.build.Legal →
    s.Holds (.fin sg e p m) (.fin sg e' p' m') → i.PrecisionValid s.build → modeOf i = .exact →
    max e e' + 1 ≤ s.build.emax →
    (Flt.fin sg e p m).toRat = some xv → (Flt.fin sg e' p' m').toRat = some yv →
    let t := targetOf i (.fin sg e p m) (.fin sg e' p' m')
    Representable t |xv + yv| →
    ∃ (u : State) (ez : Int) (mz : Nat), exec i s = .next u ∧ statusOf u.rsp.word = 0 ∧
      decodeBundle u.build u.rsp.z = some (.fin sg ez t mz) ∧ (Flt.fin sg ez t mz).toRat = some (xv + yv) ∧
      ordOf u.rsp.word = 0

/-- R14 and R323: the ORD field of a delivered finite sum, read as a 2-bit two's-complement number, is the sign of
(delivered result - exact sum). -/
def Obligations.OrderFieldIsSignOfError : Prop :=
  ∀ (i : Instr) (s u : State) (x y z : Flt) (xv yv zv : ℚ), s.build.Legal → s.Holds x y → exec i s = .next u →
    statusOf u.rsp.word = 0 → decodeBundle u.build u.rsp.z = some z →
    x.toRat = some xv → y.toRat = some yv → z.toRat = some zv →
    (sext 2 (ordOf u.rsp.word) = 1 ↔ xv + yv < zv) ∧ (sext 2 (ordOf u.rsp.word) = 0 ↔ zv = xv + yv) ∧
      (sext 2 (ordOf u.rsp.word) = -1 ↔ zv < xv + yv) ∧ ordOf u.rsp.word ≠ 2

/-- R509: two finite operands of opposite sign give SUB_REQUIRED and no result. -/
def Obligations.OppositeSignsRequireSubtraction : Prop :=
  ∀ (i : Instr) (s : State) (sg : Bool) (e e' : Int) (p m p' m' : Nat),
    s.Holds (.fin sg e p m) (.fin (!sg) e' p' m') → i.PrecisionValid s.build →
    exec i s = .next (s.complete { word := 6, z := 0 })

/-- R305: ADD_PREC_ROUND and ADD_PREC with a target precision outside `1 <= TPREC <= P_MAX` give INVALID_PRECISION,
whatever the operands are; ADD_ROUND and ADD never do. -/
def Obligations.InvalidPrecisionIsReported : Prop :=
  (∀ (s : State) (p : Nat) (m : RoundMode), p < 1 ∨ s.build.nwMax * s.build.w < p →
    exec (.addPrecRound p m) s = .next (s.complete { word := 2, z := 0 }) ∧
    exec (.addPrec p) s = .next (s.complete { word := 2, z := 0 })) ∧
  (∀ (s u : State) (i : Instr), i.PrecisionValid s.build → exec i s = .next u → statusOf u.rsp.word ≠ 2)

/-- An invalid operand bundle, in either position, gives INVALID_OPERAND before any special value is looked at. -/
def Obligations.InvalidOperandIsReported : Prop :=
  ∀ (i : Instr) (s : State), i.PrecisionValid s.build →
    decodeBundle s.build s.req.x = none ∨ decodeBundle s.build s.req.y = none →
    exec i s = .next (s.complete { word := 3, z := 0 })

/-- R610: one request reports one status, the first that applies in the order of the rule. Two finite operands of one
sign and a zero with a finite operand are rounded: INEXACT when EXACT cannot represent the exact value, else
EXP_OVERFLOW exactly when the exponent after rounding, which the same rounding delivers under a larger bound, exceeds
`EMAX`, else OK. -/
def Obligations.FaultPriority : Prop :=
  ∀ (b : Build) (c : Word32) (X Y : Nat), b.Legal →
    let st := statusOf (respondTo b ⟨c, X, Y⟩).word
    (illegal c = true → st = 1) ∧
    (∀ i, decode c = .ok i → (¬ i.PrecisionValid b → st = 2) ∧
      (i.PrecisionValid b → (decodeBundle b X = none ∨ decodeBundle b Y = none → st = 3) ∧
        (∀ x y, decodeBundle b X = some x → decodeBundle b Y = some y →
          (x = .nan ∨ y = .nan ∨ (∃ a, x = .inf a) ∨ (∃ a, y = .inf a) ∨ (∃ a a', x = .zero a ∧ y = .zero a') →
            st = 0) ∧
          (∀ sg e p m e' p' m', x = .fin sg e p m → y = .fin (!sg) e' p' m' → st = 6) ∧
          (∀ (sg : Bool) (v : Exact), exactValueOf x y = some (sg, v) →
            let t := targetOf i x y
            (modeOf i = .exact → ¬ Representable t (scaled v.n v.q) → st = 4) ∧
            (modeOf i ≠ .exact ∨ Representable t (scaled v.n v.q) →
              (st = 0 ∨ st = 5) ∧
              (st = 5 ↔ ∃ (bound : Int) (r : Rounded) (e : Int) (k : Nat),
                roundSOR bound v.n v.q sg t (modeOf i) = .ok r ∧ r.z = .fin sg e t k ∧ b.emax < e) ∧
              ((2 : ℚ) ^ (b.emax + 1) ≤ scaled v.n v.q → st = 5))))))

/-- R515: the commands agree with ADD_PREC_ROUND in the whole next state, hence in every response field. -/
def Obligations.CommandsAgreeWithCanonical : Prop :=
  ∀ (s : State) (p : Nat) (m : RoundMode),
    exec (.addPrec p) s = exec (.addPrecRound p .nearest) s ∧
    (∀ x y, s.build.Legal → s.Holds x y → exec (.addRound m) s = exec (.addPrecRound (operandPrecision x y) m) s) ∧
    exec .add s = exec (.addRound .nearest) s

/-- Commutativity: exchanging the operand bundles changes no bit of the response. -/
def Obligations.ResponseIsCommutative : Prop :=
  ∀ (b : Build) (c : Word32) (X Y : Nat), respondTo b ⟨c, X, Y⟩ = respondTo b ⟨c, Y, X⟩

/-- R705: at the completing edge the machine answers what the pseudocode of R500 on the raw command word gives:
the decoder and the four meanings together are that pseudocode. Which edge completes is said by the model's countdown
(log 3). -/
def Obligations.CompletingEdgeIsExecute : Prop :=
  ∀ s : State, s.Completes → step s = .next (s.complete (respondTo s.build s.req)).tick

/-- A step runs the decoded command: at the completing edge of a legal command word, step is exec of its command,
and then time goes on by one edge. -/
def Obligations.StepRunsDecodedCommand : Prop :=
  ∀ (s : State) (i : Instr), s.Completes → decode s.req.cmd = .ok i →
    ∃ t, exec i s = .next t ∧ step s = .next t.tick

/-- The frame of every command: it changes only RSP, ST and the model's countdown; REQ and the build stay. -/
def Obligations.CommandFrame : Prop :=
  ∀ (i : Instr) (s : State), ∃ t, exec i s = .next t ∧ t.build = s.build ∧ t.req = s.req ∧ t.st = .done ∧
    t.host = s.host ∧ t.edges = s.edges

/-! ## The handshake -/

/-- R700 and R106: with `rst = 0` the handshake outputs show ST; while `rst = 1` both are 0, and a reset edge makes
ST idle and transfers nothing. -/
def Obligations.ResetEdge : Prop :=
  ∀ s : State,
    (s.pinsNow.rst = false →
      (s.outputs.reqReady = true ↔ s.st = .idle) ∧ (s.outputs.rspValid = true ↔ s.st = .done)) ∧
    (s.pinsNow.rst = true →
      s.outputs.reqReady = false ∧ s.outputs.rspValid = false ∧
      (s.build.Legal → ∃ t, step s = .next t ∧ t.st = .idle ∧ t.build = s.build ∧ t.host = s.host.tail ∧
        t.edges = s.edges + 1))

/-- R702 and R706: an edge with `rst = 0`, `ST = IDLE` and `req_valid = 1` latches the whole request and enters
BUSY with a latency in `[1, LAT_MAX]`; without `req_valid` nothing changes. Bundles as numbers cut at `BW` bits and
the draw at the accepting edge are the model's choices (log 3, log 11); so is that REQ stays as it is in IDLE, where
IMP1 allows any value (log 7). -/
def Obligations.AcceptingEdge : Prop :=
  ∀ s : State, s.build.Legal → s.st = .idle → s.pinsNow.rst = false →
    (s.pinsNow.reqValid = true → ∃ k, 1 ≤ k ∧ k ≤ s.build.latMax ∧
      step s = .next
        { s with
          st := .busy
          req :=
            { cmd := s.pinsNow.reqCmd
              x := s.pinsNow.reqX % 2 ^ s.build.bundleBits
              y := s.pinsNow.reqY % 2 ^ s.build.bundleBits }
          lat := k, host := s.host.tail, edges := s.edges + 1 }) ∧
    (s.pinsNow.reqValid = false → step s = .next { s with host := s.host.tail, edges := s.edges + 1 })

/-- R704: in DONE the response is taken at an edge with `rsp_ready = 1`; no request is accepted at that edge.
That REQ stays as it is on entering IDLE is the model's choice, where IMP1 allows any value (log 7). -/
def Obligations.TakingEdge : Prop :=
  ∀ s : State, s.build.Legal → s.st = .done → s.pinsNow.rst = false →
    (s.pinsNow.rspReady = true →
      step s = .next { s with st := .idle, host := s.host.tail, edges := s.edges + 1 }) ∧
    (s.pinsNow.rspReady = false → step s = .next { s with host := s.host.tail, edges := s.edges + 1 })

/-- R707: from the edge that enters DONE until the response is taken, `rsp_valid = 1` and the response outputs do
not change, for any number of edges. -/
def Obligations.ResponseIsStableUntilTaken : Prop :=
  ∀ (n : Nat) (s : State), s.build.Legal → s.st = .done →
    (∀ k < n, (s.pinsAt k).rst = false ∧ (s.pinsAt k).rspReady = false) → (s.pinsAt n).rst = false →
    ∃ t : State, core.run n s = .next t ∧ t.outputs =
      { reqReady := false, rspValid := true, rspWord := s.rsp.word, rspZ := s.rsp.z }

/-- R701: after a reset edge no response is presented until a new request has been accepted. -/
def Obligations.ResetDiscardsTheOperation : Prop :=
  ∀ (n : Nat) (s : State), s.build.Legal → (s.pinsAt 0).rst = true →
    (∀ k, 1 ≤ k → k ≤ n → (s.pinsAt k).rst = true ∨ (s.pinsAt k).reqValid = false) →
    ∃ t : State, core.run (n + 1) s = .next t ∧ t.st = .idle ∧ t.outputs.rspValid = false

/-- R210 and R107: an operation once accepted stays the only one, with its request unchanged, through any edges
that neither reset the machine nor take its response. -/
def Obligations.OneOperationAtATime : Prop :=
  ∀ (n : Nat) (s : State), s.build.Legal → s.st ≠ .idle →
    (∀ k < n, ∀ u : State, core.run k s = .next u →
      u.pinsNow.rst = false ∧ ¬(u.st = .done ∧ u.pinsNow.rspReady = true)) →
    ∃ t : State, core.run n s = .next t ∧ t.st ≠ .idle ∧ t.req = s.req ∧ t.outputs.reqReady = false

/-- R708: with `rsp_ready` held and no reset, a request offered in IDLE is answered within `LAT_MAX` edges of its
acceptance with the response of its own command and bundles, and the machine is IDLE at the edge after. -/
def Obligations.RequestIsAnsweredInTime : Prop :=
  ∀ s : State, s.build.Legal → s.st = .idle → (s.pinsAt 0).reqValid = true →
    (∀ k ≤ s.build.latMax + 1, (s.pinsAt k).rst = false ∧ (s.pinsAt k).rspReady = true) →
    ∃ k, 1 ≤ k ∧ k ≤ s.build.latMax ∧
      (∃ t : State, core.run (k + 1) s = .next t ∧ t.st = .done ∧
        t.rsp = respondTo s.build
          { cmd := (s.pinsAt 0).reqCmd
            x := (s.pinsAt 0).reqX % 2 ^ s.build.bundleBits
            y := (s.pinsAt 0).reqY % 2 ^ s.build.bundleBits }) ∧
      (∃ u : State, core.run (k + 2) s = .next u ∧ u.st = .idle)

/-- R207: the response depends on the latched request and the parameters alone: two machines that hold the same
request answer alike, whatever their latencies, their earlier responses and the levels on their inputs. -/
def Obligations.ResponseDependsOnRequestAlone : Prop :=
  ∀ s u : State, s.build.Legal → s.build = u.build → s.req = u.req → s.st = .busy → u.st = .busy →
    1 ≤ s.lat → 1 ≤ u.lat → (∀ k < s.lat, (s.pinsAt k).rst = false) → (∀ k < u.lat, (u.pinsAt k).rst = false) →
    ∃ t v : State, core.run s.lat s = .next t ∧ core.run u.lat u = .next v ∧ t.st = .done ∧ v.st = .done ∧
      t.rsp = v.rsp

/-- Every step keeps the invariant: legal build, latches within their ports, a countdown within `LAT_MAX`, and in
DONE the response of the latched request. The countdown and bundles as numbers are the model's own
(log 11, log 18). -/
def Obligations.StepKeepsInvariant : Prop :=
  ∀ s t : State, s.Inv → step s = .next t → t.Inv

/-- The invariant holds right after reset. The values of REQ and RSP there and the build are the model's choices
(log 2, log 3, log 6). -/
def Obligations.ResetMeetsInvariant : Prop := State.reset.Inv

/-- MWADD never stops: a step of a legal build answers a next state in every state; an illegal build is refused
(IMP5, IMP6; log 12). -/
def Obligations.LegalBuildNeverStops : Prop :=
  ∀ s : State, (s.build.Legal → ∃ t, step s = .next t) ∧ (¬ s.build.Legal → step s = .refused .illegalBuild)

/-! ## The host's notation -/

/-- R330: a finite literal is well formed exactly when its value is not zero and is representable at its precision,
and denotes a Float of that value. -/
def Obligations.FiniteLiteralDenotesItsValue : Prop :=
  ∀ (s : Bool) (v : Exact) (p : Nat),
    ((∃ z, finiteLiteral s v p = some z) ↔ v.n ≠ 0 ∧ 1 ≤ p ∧ Representable p (scaled v.n v.q)) ∧
    (∀ z, finiteLiteral s v p = some z →
      precisionOf z = p ∧ z.toRat = some (signed s (scaled v.n v.q)))

/-- R333, line by line. The empty script finishes. A line whose operands have values is the request of its command word
and their bundles. If its response is not OK, the script stops there with that status and sets nothing; if it is OK,
its bundle decodes, its target receives that Float, and the script goes on. A line that reads an unset variable ends the
script, which is the model's choice (log 16). So every response but the last is OK, and a script that finishes has had
one OK response for every line. -/
def Obligations.ScriptStopsAtFirstFault : Prop :=
  (∀ (vars : Variables) (v z : Flt) (t n : List Char),
    operandValue vars (.literal v) = some v ∧ operandValue [] (.variable n) = none ∧
    operandValue ((t, z) :: vars) (.variable n) = if n = t then some z else operandValue vars (.variable n)) ∧
  (∀ (b : Build) (vars : Variables), runScript b [] vars = { vars := vars, responses := [], ended := .finished }) ∧
  (∀ (b : Build) (l : ScriptLine) (ls : List ScriptLine) (vars : Variables),
    (operandValue vars l.x = none ∨ operandValue vars l.y = none →
      runScript b (l :: ls) vars = { vars := vars, responses := [], ended := .unsetVariable }) ∧
    (∀ x y, operandValue vars l.x = some x → operandValue vars l.y = some y →
      let r := respondTo b { cmd := encode l.command, x := encodeBundle b x, y := encodeBundle b y }
      (statusOf r.word ≠ 0 →
        runScript b (l :: ls) vars = { vars := vars, responses := [r], ended := .stopped (statusOf r.word) }) ∧
      (b.Legal → statusOf r.word = 0 → ∃ z, decodeBundle b r.z = some z ∧
        let rest := runScript b ls ((l.target, z) :: vars)
        runScript b (l :: ls) vars =
          { vars := rest.vars, responses := r :: rest.responses, ended := rest.ended }))) ∧
  (∀ (b : Build) (ls : List ScriptLine) (vars : Variables),
    let r := runScript b ls vars
    r.responses.length ≤ ls.length ∧
    (∀ k, k + 1 < r.responses.length → statusOf (r.responses.getD k default).word = 0) ∧
    (r.ended = .finished → r.responses.length = ls.length ∧ ∀ q ∈ r.responses, statusOf q.word = 0))
end

