-- ==== Sys2Proof/Laws/Words.lean ====
section
/-! SUPPORT. Lists of significand words, and the words and header of a bundle. -/

namespace Sys2Proof

@[simp] theorem toWords_length (w n v : Nat) : (toWords w n v).length = n := by
  induction n generalizing v with
  | zero => rfl
  | succ n ih => simp [toWords, ih]

theorem toWords_lt (w n v : Nat) : ∀ a ∈ toWords w n v, a < 2 ^ w := by
  induction n generalizing v with
  | zero => simp [toWords]
  | succ n ih =>
    intro a ha
    rcases List.mem_cons.1 ha with rfl | ha
    · exact Nat.mod_lt _ (Nat.two_pow_pos w)
    · exact ih _ a ha

/-- The words of a number give the number back, less what does not fit. -/
theorem wordsValue_toWords (w n v : Nat) : wordsValue w (toWords w n v) = v % 2 ^ (w * n) := by
  induction n generalizing v with
  | zero => simp [toWords, wordsValue, Nat.mod_one]
  | succ n ih =>
    rw [toWords, wordsValue, ih, Nat.mul_succ, Nat.add_comm (w * n) w, Nat.pow_add, Nat.mod_mul]

theorem wordsValue_lt (w : Nat) (as : List Nat) (h : ∀ a ∈ as, a < 2 ^ w) :
    wordsValue w as < 2 ^ (w * as.length) := by
  induction as with
  | nil => simp [wordsValue]
  | cons a as ih =>
    have ha := h a (by simp)
    have hs := ih (fun x hx => h x (by simp [hx]))
    rw [wordsValue, List.length_cons, Nat.mul_succ, Nat.pow_add, Nat.mul_comm (2 ^ (w * as.length))]
    calc a + 2 ^ w * wordsValue w as < 2 ^ w + 2 ^ w * wordsValue w as := by omega
      _ = 2 ^ w * (wordsValue w as + 1) := by ring
      _ ≤ 2 ^ w * 2 ^ (w * as.length) := Nat.mul_le_mul_left _ hs

theorem wordsValue_append (w : Nat) (as bs : List Nat) :
    wordsValue w (as ++ bs) = wordsValue w as + 2 ^ (w * as.length) * wordsValue w bs := by
  induction as with
  | nil => simp [wordsValue]
  | cons a as ih =>
    rw [List.cons_append, wordsValue, ih, wordsValue, List.length_cons, Nat.mul_succ, Nat.pow_add]
    ring

/-- The first words of a number are those of the number cut to them. -/
theorem toWords_take (w n k v : Nat) (h : k ≤ n) : (toWords w n v).take k = toWords w k v := by
  induction k generalizing n v with
  | zero => simp [toWords]
  | succ k ih =>
    obtain ⟨n, rfl⟩ : ∃ m, n = m + 1 := ⟨n - 1, by omega⟩
    rw [toWords, List.take_succ_cons, ih n _ (by omega), toWords]

/-- Word `i` of a number. -/
theorem toWords_getD (w n v i : Nat) (h : i < n) : (toWords w n v).getD i 0 = v / 2 ^ (w * i) % 2 ^ w := by
  induction i generalizing n v with
  | zero =>
    obtain ⟨n, rfl⟩ : ∃ m, n = m + 1 := ⟨n - 1, by omega⟩
    simp [toWords]
  | succ i ih =>
    obtain ⟨n, rfl⟩ : ∃ m, n = m + 1 := ⟨n - 1, by omega⟩
    rw [toWords, List.getD_cons_succ, ih n _ (by omega), Nat.div_div_eq_div_mul, ← Nat.pow_add, Nat.mul_succ,
      Nat.add_comm w]

/-! ## Frames -/

/-- The words of a significand hold it, with its padding at the bottom (rule R112). -/
theorem wordsFor_mul (w p : Nat) (hw : 0 < w) : wordsFor w p * w = p + padBits w p := by
  have h1 : p ≤ wordsFor w p * w := by
    unfold wordsFor ceilDiv
    have hd := Nat.div_add_mod (p + w - 1) w
    have hm := Nat.mod_lt (p + w - 1) hw
    rw [Nat.mul_comm]
    omega
  unfold padBits
  omega

theorem padBits_lt (w p : Nat) (hw : 0 < w) : padBits w p < w := by
  have h := wordsFor_mul w p hw
  unfold wordsFor ceilDiv at h
  have := Nat.div_mul_le_self (p + w - 1) w
  omega

theorem wordsFor_pos (w p : Nat) (hw : 0 < w) (hp : 1 ≤ p) : 1 ≤ wordsFor w p := by
  by_contra hc
  have : wordsFor w p = 0 := by omega
  have h := wordsFor_mul w p hw
  rw [this] at h
  omega

/-- A precision of at most `NW_MAX * W` bits needs at most `NW_MAX` words. -/
theorem wordsFor_le (w p n : Nat) (hw : 0 < w) (hp : p ≤ n * w) : wordsFor w p ≤ n := by
  unfold wordsFor ceilDiv
  rw [Nat.div_le_iff_le_mul_add_pred hw]
  rw [Nat.mul_comm] at hp
  omega

/-! ## Words of a bundle -/

/-- Word `i` of a bundle is a word of the part above the header (rules R203, R310). -/
theorem bundleWord_eq (b : Build) (B : Nat) (i : Nat) (hw : 0 < b.w) :
    bundleWord b B i = B / 2 ^ 64 / 2 ^ (b.w * i) % 2 ^ b.w := by
  have : 64 + b.w * (i + 1) - 1 + 1 - (64 + b.w * i) = b.w := by
    rw [Nat.mul_succ]
    omega
  rw [bundleWord, field, this, Nat.pow_add, Nat.div_div_eq_div_mul]

@[simp] theorem bundleWords_length (b : Build) (B : Nat) : (bundleWords b B).length = b.nwMax := by
  simp [bundleWords]

/-- The words of a bundle are the words of the number above the header. -/
theorem bundleWords_eq (b : Build) (B : Nat) (hw : 0 < b.w) :
    bundleWords b B = toWords b.w b.nwMax (B / 2 ^ 64) := by
  refine List.ext_getElem (by simp) (fun i h1 h2 => ?_)
  have hi : i < b.nwMax := by simpa using h1
  have := toWords_getD b.w b.nwMax (B / 2 ^ 64) i hi
  rw [List.getD_eq_getElem _ _ (by simpa using hi)] at this
  rw [this]
  simp [bundleWords, bundleWord_eq b B i hw]

/-- The number above the header, from the words. -/
theorem wordsValue_bundleWords (b : Build) (B : Nat) (hw : 0 < b.w) :
    wordsValue b.w (bundleWords b B) = B / 2 ^ 64 % 2 ^ (b.w * b.nwMax) := by
  rw [bundleWords_eq b B hw, wordsValue_toWords]

/-! ## Headers -/

/-- A header whose fields are in range is a 64-bit number with its five reserved bits zero. -/
theorem packHeader_lt (s : Bool) (c p e : Nat) (hc : c < 4) (hp : p < 2 ^ 24) (he : e < 2 ^ 32) :
    packHeader s c p e < 2 ^ 59 := by
  cases s <;> simp only [packHeader, Bool.toNat_false, Bool.toNat_true] <;> omega

/-- The header of a packed bundle is its low 64 bits. -/
theorem packBundle_header (b : Build) (h : Nat) (ws : List Nat) (hh : h < 2 ^ 64) :
    packBundle b h ws % 2 ^ 64 = h := by
  unfold packBundle
  omega

/-- The words of a packed bundle are the number above its header. -/
theorem packBundle_words (b : Build) (h : Nat) (ws : List Nat) (hh : h < 2 ^ 64) :
    packBundle b h ws / 2 ^ 64 = wordsValue b.w ws := by
  unfold packBundle
  omega

/-- Every encoded bundle fits its port. -/
theorem encodeBundle_lt (b : Build) (z : Flt) : encodeBundle b z < 2 ^ b.bundleBits := by
  have h64 : (2 : Nat) ^ 64 ≤ 2 ^ b.bundleBits := Nat.pow_le_pow_right (by omega) (by simp [Build.bundleBits])
  cases z with
  | nan => exact lt_of_lt_of_le (show packHeader false 3 0 0 < 2 ^ 64 by decide) h64
  | inf s => exact lt_of_lt_of_le (show packHeader s 2 0 0 < 2 ^ 64 by cases s <;> decide) h64
  | zero s => exact lt_of_lt_of_le (show packHeader s 0 0 0 < 2 ^ 64 by cases s <;> decide) h64
  | fin s e p m =>
    have he : (e % 2 ^ 32).toNat < 2 ^ 32 := by omega
    have hh := packHeader_lt s 1 (p % 2 ^ 24) (e % 2 ^ 32).toNat (by omega) (Nat.mod_lt _ (by norm_num)) he
    have hv := wordsValue_lt b.w _ (toWords_lt b.w b.nwMax (m * 2 ^ padBits b.w p))
    rw [toWords_length] at hv
    have hbits : (2 : Nat) ^ b.bundleBits = 2 ^ 64 * 2 ^ (b.w * b.nwMax) := by
      rw [Build.bundleBits, Nat.mul_comm b.nwMax, Nat.pow_add]
    rw [encodeBundle, packBundle, hbits]
    have key := Nat.mul_le_mul_left (2 ^ 64) (Nat.succ_le_of_lt hv)
    exact lt_of_lt_of_le (by omega) key

end Sys2Proof
end

