-- ==== Sys2Proof/Laws/Decode.lean ====
section
/-! SUPPORT. Fields of words, and what the two decoders can answer. -/

namespace Sys2Proof

/-! ## Fields -/

theorem field_lt (v hi lo : Nat) : field v hi lo < 2 ^ (hi + 1 - lo) := Nat.mod_lt _ (Nat.two_pow_pos _)

theorem bitAt_iff (v i : Nat) : bitAt v i = true ↔ v / 2 ^ i % 2 = 1 := by simp [bitAt]

theorem bitAt_eq_false_iff (v i : Nat) : bitAt v i = false ↔ v / 2 ^ i % 2 = 0 := by
  simp only [bitAt, beq_eq_false_iff_ne, ne_eq]
  omega

/-- Two's complement of 32 bits reads back what was reduced modulo `2^32` from the 32-bit range. -/
theorem sext_emod (e : Int) (h1 : -2147483648 ≤ e) (h2 : e ≤ 2147483647) :
    sext 32 (e % 2 ^ 32).toNat = e := by
  unfold sext
  split <;> omega

theorem sext_range (v : Nat) (h : v < 2 ^ 32) : -2147483648 ≤ sext 32 v ∧ sext 32 v ≤ 2147483647 := by
  unfold sext
  split <;> omega

/-! ## Rounding-mode codes -/

@[simp] theorem modeOfCode_modeCode (m : RoundMode) : modeOfCode (modeCode m) = some m := by cases m <;> rfl

theorem modeCode_le (m : RoundMode) : modeCode m ≤ 5 := by cases m <;> decide

theorem modeOfCode_eq_some {k : Nat} {m : RoundMode} (h : modeOfCode k = some m) : modeCode m = k := by
  rcases k with _ | _ | _ | _ | _ | _ | k <;> simp only [modeOfCode, Option.some.injEq, reduceCtorEq] at h <;>
    subst h <;> rfl

theorem modeOfCode_eq_none_iff (k : Nat) : modeOfCode k = none ↔ 6 ≤ k := by
  rcases k with _ | _ | _ | _ | _ | _ | k <;> simp [modeOfCode]

/-! ## Command words -/

theorem commandWord_toNat (p m o : Nat) (hp : p < 16777216) (hm : m < 8) (ho : o < 16) :
    (commandWord p m o).toNat = p * 2 ^ 8 + m * 2 ^ 4 + o := by
  rw [commandWord, BitVec.toNat_ofNat]
  exact Nat.mod_eq_of_lt (by omega)

theorem opcOf_commandWord (p m o : Nat) (hp : p < 16777216) (hm : m < 8) (ho : o < 16) :
    opcOf (commandWord p m o) = o := by
  rw [opcOf, commandWord_toNat p m o hp hm ho, field]
  omega

theorem rmOf_commandWord (p m o : Nat) (hp : p < 16777216) (hm : m < 8) (ho : o < 16) :
    rmOf (commandWord p m o) = m := by
  rw [rmOf, commandWord_toNat p m o hp hm ho, field]
  omega

theorem reservedOf_commandWord (p m o : Nat) (hp : p < 16777216) (hm : m < 8) (ho : o < 16) :
    reservedOf (commandWord p m o) = 0 := by
  rw [reservedOf, commandWord_toNat p m o hp hm ho, field]
  omega

theorem tprecOf_commandWord (p m o : Nat) (hp : p < 16777216) (hm : m < 8) (ho : o < 16) :
    tprecOf (commandWord p m o) = p := by
  rw [tprecOf, commandWord_toNat p m o hp hm ho, field]
  omega

/-- A command word is the concatenation of its fields. -/
theorem word_toNat_eq (c : Word32) :
    c.toNat = tprecOf c * 2 ^ 8 + reservedOf c * 2 ^ 7 + rmOf c * 2 ^ 4 + opcOf c := by
  have := c.isLt
  simp only [tprecOf, reservedOf, rmOf, opcOf, field]
  omega

theorem opcOf_lt (c : Word32) : opcOf c < 16 := by simpa [opcOf] using field_lt c.toNat 3 0

theorem rmOf_lt (c : Word32) : rmOf c < 8 := by simpa [rmOf] using field_lt c.toNat 6 4

theorem tprecOf_lt (c : Word32) : tprecOf c < 16777216 := by simpa [tprecOf] using field_lt c.toNat 31 8

/-- All that a decoded command says about its word. -/
theorem decode_ok_cases {c : Word32} {i : Instr} (h : decode c = .ok i) :
    reservedOf c = 0 ∧ ∃ m, modeCode m = rmOf c ∧
      ((opcOf c = 0 ∧ i = .addPrecRound (tprecOf c) m) ∨
      (opcOf c = 1 ∧ rmOf c = 0 ∧ i = .addPrec (tprecOf c)) ∨
      (opcOf c = 2 ∧ tprecOf c = 0 ∧ i = .addRound m) ∨
      (opcOf c = 3 ∧ rmOf c = 0 ∧ tprecOf c = 0 ∧ i = .add)) := by
  unfold decode at h
  split at h
  · cases h
  rename_i hopc
  split at h
  · cases h
  rename_i hres
  cases hm : modeOfCode (rmOf c) with
  | none => simp [hm] at h
  | some m =>
    simp only [hm] at h
    split at h
    · cases h
    rename_i hrm
    split at h
    · cases h
    rename_i htp
    refine ⟨by omega, m, modeOfCode_eq_some hm, ?_⟩
    have hcase : opcOf c = 0 ∨ opcOf c = 1 ∨ opcOf c = 2 ∨ opcOf c = 3 := by omega
    rcases hcase with ho | ho | ho | ho <;> simp only [ho, Except.ok.injEq] at h hrm htp <;> subst h
    · exact .inl ⟨ho, rfl⟩
    · exact .inr (.inl ⟨ho, by simpa [bitAt] using hrm, rfl⟩)
    · exact .inr (.inr (.inl ⟨ho, by simpa [bitAt] using htp, rfl⟩))
    · exact .inr (.inr (.inr ⟨ho, by simpa [bitAt] using hrm, by simpa [bitAt] using htp, rfl⟩))

/-- The decoder rejects a word with the first condition of rule R304 that it meets, and so only an illegal word. -/
theorem decode_error_illegal {c : Word32} {e : IllegalCause} (h : decode c = .error e) : illegal c = true := by
  simp only [illegal, Bool.or_eq_true, decide_eq_true_eq]
  unfold decode at h
  split at h
  · exact .inl (.inl (.inl (.inl ‹_›)))
  · split at h
    · exact .inl (.inl (.inl (.inr ‹_›)))
    · split at h
      · rename_i hm
        exact .inl (.inl (.inr ((modeOfCode_eq_none_iff _).1 hm)))
      · split at h
        · exact .inl (.inr ‹_›)
        · split at h
          · exact .inr ‹_›
          · split at h <;> cases h
/-! ## Bundles -/

/-- All that a decoded Finite bundle says about its fields (rule R312). -/
theorem decodeFinite_some {b : Build} {s : Bool} {e : Int} {p : Nat} {ws : List Nat} {z : Flt}
    (h : decodeFinite b s e p ws = some z) :
    1 ≤ p ∧ p ≤ b.pMax ∧ b.emin ≤ e ∧ e ≤ b.emax ∧
    bitAt (ws.getD (wordsFor b.w p - 1) 0) (b.w - 1) = true ∧ ws.getD 0 0 % 2 ^ padBits b.w p = 0 ∧
    (∀ a ∈ ws.drop (wordsFor b.w p), a = 0) ∧
    z = .fin s e p (wordsValue b.w (ws.take (wordsFor b.w p)) / 2 ^ padBits b.w p) := by
  unfold decodeFinite at h
  split at h
  · cases h
  split at h
  · cases h
  split at h
  · cases h
  rename_i htop
  split at h
  · cases h
  rename_i hpad
  split at h
  · cases h
  rename_i hrest
  injection h with h
  refine ⟨by omega, by omega, by omega, by omega, by simpa using htop, by simpa using hpad, ?_, h.symm⟩
  simpa using hrest

/-- All that a decoded bundle says about its header and words (rules R310 to R312). -/
theorem decodeBundle_some {b : Build} {B : Nat} {z : Flt} (h : decodeBundle b B = some z) :
    field (field B 63 0) 63 59 = 0 ∧
    ((field (field B 63 0) 57 56 = 1 ∧
      decodeFinite b (bitAt (field B 63 0) 58) (sext 32 (field (field B 63 0) 31 0)) (field (field B 63 0) 55 32)
        (bundleWords b B) = some z) ∨
    (field (field B 63 0) 31 0 = 0 ∧ field (field B 63 0) 55 32 = 0 ∧ (∀ a ∈ bundleWords b B, a = 0) ∧
      ((field (field B 63 0) 57 56 = 3 ∧ bitAt (field B 63 0) 58 = false ∧ z = .nan) ∨
      (field (field B 63 0) 57 56 = 0 ∧ z = .zero (bitAt (field B 63 0) 58)) ∨
      (field (field B 63 0) 57 56 = 2 ∧ z = .inf (bitAt (field B 63 0) 58))))) := by
  have hc : field (field B 63 0) 57 56 < 4 := by simpa using field_lt (field B 63 0) 57 56
  unfold decodeBundle at h
  simp only at h
  split at h
  · cases h
  rename_i hres
  refine ⟨by omega, ?_⟩
  split at h
  · rename_i hcls
    split at h
    · cases h
    rename_i hzero
    simp only [not_or, Decidable.not_not, ne_eq, List.any_eq_true, bne_iff_ne, not_exists, not_and] at hzero
    refine .inr ⟨hzero.1, hzero.2.1, hzero.2.2, ?_⟩
    split at h
    · rename_i h3
      split at h
      · cases h
      · rename_i hs
        injection h with h
        exact .inl ⟨h3, by simpa using hs, h.symm⟩
    split at h
    · rename_i h0
      injection h with h
      exact .inr (.inl ⟨h0, h.symm⟩)
    · injection h with h
      exact .inr (.inr ⟨by omega, h.symm⟩)
  · exact .inl ⟨by omega, h⟩

/-- The precision of a decoded Float is a legal target precision. -/
theorem decodeBundle_fin_precision {b : Build} {B : Nat} {s : Bool} {e : Int} {p m : Nat}
    (h : decodeBundle b B = some (.fin s e p m)) : 1 ≤ p ∧ p ≤ b.pMax ∧ b.emin ≤ e ∧ e ≤ b.emax := by
  rcases (decodeBundle_some h).2 with ⟨-, hf⟩ | ⟨-, -, -, ⟨-, -, hz⟩ | ⟨-, hz⟩ | ⟨-, hz⟩⟩
  · obtain ⟨h1, h2, h3, h4, -, -, -, hz⟩ := decodeFinite_some hf
    injection hz with _ he hp _
    subst he hp
    exact ⟨h1, h2, h3, h4⟩
  all_goals cases hz

end Sys2Proof
end

