-- ==== Sys2Proof/Laws/State.lean ====
section
/-! SUPPORT. What each operation on the state does to each field, one lemma per field and operation, so that no proof
unfolds a record update; and the response of an operation that does or does not fail. -/

namespace Sys2Proof.Machine

/-! ## tick -/

@[simp] theorem tick_build (s : State) : s.tick.build = s.build := rfl
@[simp] theorem tick_st (s : State) : s.tick.st = s.st := rfl
@[simp] theorem tick_req (s : State) : s.tick.req = s.req := rfl
@[simp] theorem tick_rsp (s : State) : s.tick.rsp = s.rsp := rfl
@[simp] theorem tick_lat (s : State) : s.tick.lat = s.lat := rfl
@[simp] theorem tick_host (s : State) : s.tick.host = s.host.tail := rfl
@[simp] theorem tick_edges (s : State) : s.tick.edges = s.edges + 1 := rfl

/-! ## resetEdge -/

@[simp] theorem resetEdge_build (s : State) : s.resetEdge.build = s.build := rfl
@[simp] theorem resetEdge_st (s : State) : s.resetEdge.st = .idle := rfl
@[simp] theorem resetEdge_lat (s : State) : s.resetEdge.lat = 0 := rfl
@[simp] theorem resetEdge_host (s : State) : s.resetEdge.host = s.host := rfl
@[simp] theorem resetEdge_edges (s : State) : s.resetEdge.edges = s.edges := rfl

/-! ## accept -/

@[simp] theorem accept_build (s : State) (p : Pins) : (s.accept p).build = s.build := rfl
@[simp] theorem accept_st (s : State) (p : Pins) : (s.accept p).st = .busy := rfl
@[simp] theorem accept_req (s : State) (p : Pins) : (s.accept p).req = sampleRequest s.build p := rfl
@[simp] theorem accept_rsp (s : State) (p : Pins) : (s.accept p).rsp = s.rsp := rfl
@[simp] theorem accept_lat (s : State) (p : Pins) : (s.accept p).lat = latencyAt s.build s.edges := rfl
@[simp] theorem accept_host (s : State) (p : Pins) : (s.accept p).host = s.host := rfl
@[simp] theorem accept_edges (s : State) (p : Pins) : (s.accept p).edges = s.edges := rfl

/-! ## countDown -/

@[simp] theorem countDown_build (s : State) : s.countDown.build = s.build := rfl
@[simp] theorem countDown_st (s : State) : s.countDown.st = s.st := rfl
@[simp] theorem countDown_req (s : State) : s.countDown.req = s.req := rfl
@[simp] theorem countDown_rsp (s : State) : s.countDown.rsp = s.rsp := rfl
@[simp] theorem countDown_lat (s : State) : s.countDown.lat = s.lat - 1 := rfl
@[simp] theorem countDown_host (s : State) : s.countDown.host = s.host := rfl
@[simp] theorem countDown_edges (s : State) : s.countDown.edges = s.edges := rfl

/-! ## complete -/

@[simp] theorem complete_build (s : State) (r : Response) : (s.complete r).build = s.build := rfl
@[simp] theorem complete_st (s : State) (r : Response) : (s.complete r).st = .done := rfl
@[simp] theorem complete_req (s : State) (r : Response) : (s.complete r).req = s.req := rfl
@[simp] theorem complete_rsp (s : State) (r : Response) : (s.complete r).rsp = r := rfl
@[simp] theorem complete_lat (s : State) (r : Response) : (s.complete r).lat = 0 := rfl
@[simp] theorem complete_host (s : State) (r : Response) : (s.complete r).host = s.host := rfl
@[simp] theorem complete_edges (s : State) (r : Response) : (s.complete r).edges = s.edges := rfl

/-! ## respond -/

@[simp] theorem respond_build (s : State) (d : Except FaultStatus Delivery) : (s.respond d).build = s.build := rfl
@[simp] theorem respond_st (s : State) (d : Except FaultStatus Delivery) : (s.respond d).st = .done := rfl
@[simp] theorem respond_req (s : State) (d : Except FaultStatus Delivery) : (s.respond d).req = s.req := rfl
@[simp] theorem respond_rsp (s : State) (d : Except FaultStatus Delivery) : (s.respond d).rsp = responseOf s.build d := rfl
@[simp] theorem respond_lat (s : State) (d : Except FaultStatus Delivery) : (s.respond d).lat = 0 := rfl
@[simp] theorem respond_host (s : State) (d : Except FaultStatus Delivery) : (s.respond d).host = s.host := rfl
@[simp] theorem respond_edges (s : State) (d : Except FaultStatus Delivery) : (s.respond d).edges = s.edges := rfl

/-! ## takeResponse -/

@[simp] theorem takeResponse_build (s : State) : s.takeResponse.build = s.build := rfl
@[simp] theorem takeResponse_st (s : State) : s.takeResponse.st = .idle := rfl
@[simp] theorem takeResponse_req (s : State) : s.takeResponse.req = s.req := rfl
@[simp] theorem takeResponse_rsp (s : State) : s.takeResponse.rsp = s.rsp := rfl
@[simp] theorem takeResponse_lat (s : State) : s.takeResponse.lat = s.lat := rfl
@[simp] theorem takeResponse_host (s : State) : s.takeResponse.host = s.host := rfl
@[simp] theorem takeResponse_edges (s : State) : s.takeResponse.edges = s.edges := rfl

/-- A reset edge leaves in the latches what the ports can carry. -/
theorem resetEdge_latches_fit (s : State) :
    s.resetEdge.req.x < 2 ^ s.build.bundleBits ∧ s.resetEdge.req.y < 2 ^ s.build.bundleBits ∧
      s.resetEdge.rsp.z < 2 ^ s.build.bundleBits :=
  ⟨Nat.mod_lt _ (Nat.two_pow_pos _), Nat.mod_lt _ (Nat.two_pow_pos _), Nat.mod_lt _ (Nat.two_pow_pos _)⟩

/-! ## Sampling and latency -/

@[simp] theorem sampleRequest_cmd (b : Build) (p : Pins) : (sampleRequest b p).cmd = p.reqCmd := rfl
@[simp] theorem sampleRequest_x (b : Build) (p : Pins) : (sampleRequest b p).x = p.reqX % 2 ^ b.bundleBits := rfl
@[simp] theorem sampleRequest_y (b : Build) (p : Pins) : (sampleRequest b p).y = p.reqY % 2 ^ b.bundleBits := rfl

/-- A drawn latency is in `[1, LAT_MAX]` (rule R706). -/
theorem latencyAt_range (b : Build) (k : Nat) (h : b.latMax ≠ 0) :
    1 ≤ latencyAt b k ∧ latencyAt b k ≤ b.latMax := by
  have := Nat.mod_lt (Config.latencyDraw k) (Nat.pos_of_ne_zero h)
  unfold latencyAt
  omega

/-! ## The schedule of the host -/

theorem pinsNow_eq_pinsAt (s : State) : s.pinsNow = s.pinsAt 0 := by
  cases h : s.host <;> simp [State.pinsNow, State.pinsAt, h]

/-- What an operation that keeps the schedule and the time samples next. -/
theorem pinsAt_congr {s t : State} (hh : t.host = s.host) (he : t.edges = s.edges) (k : Nat) :
    t.pinsAt k = s.pinsAt k := by
  simp [State.pinsAt, hh, he]

/-- After one edge the levels due at edge `k` are those that were due at edge `k + 1`. -/
@[simp] theorem pinsAt_tick (s : State) (k : Nat) : s.tick.pinsAt k = s.pinsAt (k + 1) := by
  have : s.edges + 1 + k = s.edges + (k + 1) := by omega
  cases h : s.host <;> simp [State.pinsAt, h, this]

@[simp] theorem pinsAt_resetEdge (s : State) (k : Nat) : s.resetEdge.pinsAt k = s.pinsAt k := rfl
@[simp] theorem pinsAt_accept (s : State) (p : Pins) (k : Nat) : (s.accept p).pinsAt k = s.pinsAt k := rfl
@[simp] theorem pinsAt_countDown (s : State) (k : Nat) : s.countDown.pinsAt k = s.pinsAt k := rfl
@[simp] theorem pinsAt_complete (s : State) (r : Response) (k : Nat) : (s.complete r).pinsAt k = s.pinsAt k := rfl
@[simp] theorem pinsAt_respond (s : State) (d : Except FaultStatus Delivery) (k : Nat) :
    (s.respond d).pinsAt k = s.pinsAt k := rfl
@[simp] theorem pinsAt_takeResponse (s : State) (k : Nat) : s.takeResponse.pinsAt k = s.pinsAt k := rfl

/-! ## Placing a command -/

@[simp] theorem placeCommand_st (s : State) (n w : Nat) : (placeCommand s n w).st = .busy := rfl
@[simp] theorem placeCommand_lat (s : State) (n w : Nat) : (placeCommand s n w).lat = 1 := rfl
@[simp] theorem placeCommand_build (s : State) (n w : Nat) : (placeCommand s n w).build = s.build := rfl
@[simp] theorem placeCommand_rsp (s : State) (n w : Nat) : (placeCommand s n w).rsp = s.rsp := rfl
@[simp] theorem placeCommand_edges (s : State) (n w : Nat) : (placeCommand s n w).edges = s.edges := rfl
@[simp] theorem placeCommand_cmd (s : State) (n w : Nat) :
    (placeCommand s n w).req.cmd = BitVec.ofNat 32 (w % 2 ^ n) := rfl
@[simp] theorem placeCommand_x (s : State) (n w : Nat) : (placeCommand s n w).req.x = s.req.x := rfl
@[simp] theorem placeCommand_y (s : State) (n w : Nat) : (placeCommand s n w).req.y = s.req.y := rfl
@[simp] theorem placeCommand_rst (s : State) (n w : Nat) : (placeCommand s n w).pinsNow.rst = false := rfl

/-! ## Outputs -/

/-- The outputs in DONE without reset are the response register (rules R106, R108). -/
theorem outputs_of_done {s : State} (h : s.st = .done) (hr : s.pinsNow.rst = false) :
    s.outputs = { reqReady := false, rspValid := true, rspWord := s.rsp.word, rspZ := s.rsp.z } := by
  simp [State.outputs, State.outputsWith, h, hr]

/-- Both handshake outputs are low while `rst = 1` (rule R700). -/
theorem outputs_of_reset {s : State} (hr : s.pinsNow.rst = true) :
    s.outputs.reqReady = false ∧ s.outputs.rspValid = false := by
  simp [State.outputs, State.outputsWith, hr]

theorem rspValid_eq (s : State) : s.outputs.rspValid = (decide (s.st = .done) && !s.pinsNow.rst) := rfl

theorem reqReady_eq (s : State) : s.outputs.reqReady = (decide (s.st = .idle) && !s.pinsNow.rst) := rfl

end Sys2Proof.Machine
end

