-- ==== Sys2Proof/Laws/Handshake.lean ====
section
/-! SUPPORT. What one step can do: one lemma per kind of edge, and the inversion of a step. -/

namespace Sys2Proof.Machine

/-- Every meaning answers a next state; which response it writes is that of `answerOf`. -/
def answerOf (i : Instr) (s : State) : Except FaultStatus Delivery :=
  match i with
  | .addPrecRound tprec rm => addPrecRoundOf s.build tprec rm s.req.x s.req.y
  | .addPrec tprec => addPrecOf s.build tprec s.req.x s.req.y
  | .addRound rm => addRoundOf s.build rm s.req.x s.req.y
  | .add => addOf s.build s.req.x s.req.y

/-- All that a command does: it completes the operation with its answer. -/
theorem exec_eq (i : Instr) (s : State) : exec i s = .next (s.respond (answerOf i s)) := by
  cases i <;> rfl

theorem exec_next_iff {i : Instr} {s t : State} : exec i s = .next t ↔ t = s.respond (answerOf i s) := by
  rw [exec_eq]
  constructor
  · intro h
    injection h with h
    exact h.symm
  · rintro rfl
    rfl

/-! ## The kinds of edges -/

/-- A completing edge answers the latched command word, legal or not. -/
theorem completingEdge_eq (s : State) :
    completingEdge s = .next (s.respond
      (match decode s.req.cmd with | .ok i => answerOf i s | .error _ => .error .illegalCommand)) := by
  unfold completingEdge
  cases decode s.req.cmd with
  | error e => rfl
  | ok i => exact exec_eq i s

theorem step_of_legal {s : State} (hb : s.build.Legal) : step s = edge s := if_pos hb

theorem step_of_illegal {s : State} (hb : ¬ s.build.Legal) : step s = .refused .illegalBuild := if_neg hb

theorem step_reset {s : State} (hb : s.build.Legal) (hr : s.pinsNow.rst = true) :
    step s = .next s.resetEdge.tick := by
  rw [step_of_legal hb]
  simp [edge, hr]

theorem step_running {s : State} (hb : s.build.Legal) (hr : s.pinsNow.rst = false) :
    step s = tickOutcome (runningEdge s) := by
  rw [step_of_legal hb]
  simp [edge, hr]

theorem step_accept {s : State} (hb : s.build.Legal) (hr : s.pinsNow.rst = false) (hs : s.st = .idle)
    (hv : s.pinsNow.reqValid = true) : step s = .next (s.accept s.pinsNow).tick := by
  rw [step_running hb hr]
  simp [runningEdge, tickOutcome, hs, hv]

theorem step_idle {s : State} (hb : s.build.Legal) (hr : s.pinsNow.rst = false) (hs : s.st = .idle)
    (hv : s.pinsNow.reqValid = false) : step s = .next s.tick := by
  rw [step_running hb hr]
  simp [runningEdge, tickOutcome, hs, hv]

theorem step_countDown {s : State} (hb : s.build.Legal) (hr : s.pinsNow.rst = false) (hs : s.st = .busy)
    (hl : 1 < s.lat) : step s = .next s.countDown.tick := by
  rw [step_running hb hr]
  have : ¬ s.lat ≤ 1 := by omega
  simp [runningEdge, tickOutcome, hs, this]

theorem step_complete {s : State} (hb : s.build.Legal) (hr : s.pinsNow.rst = false) (hs : s.st = .busy)
    (hl : s.lat ≤ 1) :
    step s = .next (s.respond
      (match decode s.req.cmd with | .ok i => answerOf i s | .error _ => .error .illegalCommand)).tick := by
  rw [step_running hb hr]
  simp only [runningEdge, hs, hl, if_true]
  rw [completingEdge_eq]
  rfl

theorem step_take {s : State} (hb : s.build.Legal) (hr : s.pinsNow.rst = false) (hs : s.st = .done)
    (hv : s.pinsNow.rspReady = true) : step s = .next s.takeResponse.tick := by
  rw [step_running hb hr]
  simp [runningEdge, tickOutcome, hs, hv]

theorem step_hold {s : State} (hb : s.build.Legal) (hr : s.pinsNow.rst = false) (hs : s.st = .done)
    (hv : s.pinsNow.rspReady = false) : step s = .next s.tick := by
  rw [step_running hb hr]
  simp [runningEdge, tickOutcome, hs, hv]

/-- All that a step can do. -/
theorem step_cases {s t : State} (h : step s = .next t) : s.build.Legal ∧
    ((s.pinsNow.rst = true ∧ t = s.resetEdge.tick) ∨
    (s.pinsNow.rst = false ∧
      ((s.st = .idle ∧ s.pinsNow.reqValid = true ∧ t = (s.accept s.pinsNow).tick) ∨
      (s.st = .idle ∧ s.pinsNow.reqValid = false ∧ t = s.tick) ∨
      (s.st = .busy ∧ 1 < s.lat ∧ t = s.countDown.tick) ∨
      (s.st = .busy ∧ s.lat ≤ 1 ∧
        t = (s.respond
          (match decode s.req.cmd with | .ok i => answerOf i s | .error _ => .error .illegalCommand)).tick) ∨
      (s.st = .done ∧ s.pinsNow.rspReady = true ∧ t = s.takeResponse.tick) ∨
      (s.st = .done ∧ s.pinsNow.rspReady = false ∧ t = s.tick)))) := by
  by_cases hb : s.build.Legal
  swap
  · rw [step_of_illegal hb] at h
    cases h
  refine ⟨hb, ?_⟩
  cases hr : s.pinsNow.rst with
  | true =>
    rw [step_reset hb hr] at h
    injection h with h
    exact .inl ⟨rfl, h.symm⟩
  | false =>
    refine .inr ⟨rfl, ?_⟩
    cases hs : s.st with
    | idle =>
      cases hv : s.pinsNow.reqValid with
      | true =>
        rw [step_accept hb hr hs hv] at h
        injection h with h
        exact .inl ⟨rfl, rfl, h.symm⟩
      | false =>
        rw [step_idle hb hr hs hv] at h
        injection h with h
        exact .inr (.inl ⟨rfl, rfl, h.symm⟩)
    | busy =>
      by_cases hl : s.lat ≤ 1
      · rw [step_complete hb hr hs hl] at h
        injection h with h
        exact .inr (.inr (.inr (.inl ⟨rfl, hl, h.symm⟩)))
      · rw [step_countDown hb hr hs (by omega)] at h
        injection h with h
        exact .inr (.inr (.inl ⟨rfl, by omega, h.symm⟩))
    | done =>
      cases hv : s.pinsNow.rspReady with
      | true =>
        rw [step_take hb hr hs hv] at h
        injection h with h
        exact .inr (.inr (.inr (.inr (.inl ⟨rfl, rfl, h.symm⟩))))
      | false =>
        rw [step_hold hb hr hs hv] at h
        injection h with h
        exact .inr (.inr (.inr (.inr (.inr ⟨rfl, rfl, h.symm⟩))))

/-! ## Runs -/

/-- A run of one more edge begins with a step. -/
theorem run_succ_of_step {s t : State} (n : Nat) (h : step s = .next t) : core.run (n + 1) s = core.run n t := by
  have h' : core.step s = .next t := h
  exact (Host.Core.run.eq_2 core s n).trans (by rw [h'])

theorem run_zero (s : State) : core.run 0 s = .next s := rfl

end Sys2Proof.Machine
end

