-- ==== Sys2Proof/Laws/Rounding.lean ====
section
/-! SUPPORT. Bit lengths, the cut to a precision, and what a rounding can answer. -/

namespace Sys2Proof.Machine

/-! ## Bit length (rule R11) -/

theorem bitlen_pos {n : Nat} (h : 0 < n) : 1 ≤ bitlen n := by
  unfold bitlen
  split <;> omega

/-- `2^(L-1) <= n < 2^L` for `L = bitlen n`. -/
theorem bitlen_bounds {n : Nat} (h : 0 < n) : 2 ^ (bitlen n - 1) ≤ n ∧ n < 2 ^ bitlen n := by
  have h0 : n ≠ 0 := by omega
  simp only [bitlen, h0, if_false, Nat.add_sub_cancel]
  exact ⟨Nat.log2_self_le h0, Nat.lt_log2_self⟩

theorem lt_two_pow_bitlen (n : Nat) : n < 2 ^ bitlen n := by
  rcases Nat.eq_zero_or_pos n with rfl | h
  · exact Nat.two_pow_pos _
  · exact (bitlen_bounds h).2

/-- The bit length is the one number with those bounds. -/
theorem bitlen_eq_of_bounds {n k : Nat} (h1 : 2 ^ k ≤ n) (h2 : n < 2 ^ (k + 1)) : bitlen n = k + 1 := by
  have hn : 0 < n := lt_of_lt_of_le (Nat.two_pow_pos k) h1
  obtain ⟨h3, h4⟩ := bitlen_bounds hn
  have h5 : k < bitlen n := (Nat.pow_lt_pow_iff_right (by omega)).1 (lt_of_le_of_lt h1 h4)
  have h6 : bitlen n - 1 < k + 1 := (Nat.pow_lt_pow_iff_right (by omega)).1 (lt_of_le_of_lt h3 h2)
  omega

/-! ## The cut (rule R430) -/

/-- A number that fits is only filled with zeros. -/
theorem cutTo_of_fits {n p : Nat} (h : bitlen n ≤ p) :
    cutTo n p = { t := n * 2 ^ (p - bitlen n), r := false, st := false } := if_pos h

/-- A number that does not fit is cut into the retained bits, the round bit and the rest. -/
theorem cutTo_of_exceeds {n p : Nat} (h : p < bitlen n) :
    cutTo n p =
      { t := n / 2 ^ (bitlen n - p)
        r := bitAt n (bitlen n - p - 1)
        st := decide (n % 2 ^ (bitlen n - p - 1) ≠ 0) } := if_neg (by omega)

/-- The retained bits are a significand of `p` bits. -/
theorem cutTo_range {n p : Nat} (hn : 0 < n) (hp : 1 ≤ p) :
    2 ^ (p - 1) ≤ (cutTo n p).t ∧ (cutTo n p).t < 2 ^ p := by
  obtain ⟨h1, h2⟩ := bitlen_bounds hn
  have hl := bitlen_pos hn
  by_cases hf : bitlen n ≤ p
  · rw [cutTo_of_fits hf]
    refine ⟨?_, ?_⟩
    · calc 2 ^ (p - 1) = 2 ^ (bitlen n - 1) * 2 ^ (p - bitlen n) := by
            rw [← Nat.pow_add]
            congr 1
            omega
        _ ≤ n * 2 ^ (p - bitlen n) := Nat.mul_le_mul_right _ h1
    · calc n * 2 ^ (p - bitlen n) < 2 ^ bitlen n * 2 ^ (p - bitlen n) :=
            Nat.mul_lt_mul_of_pos_right h2 (Nat.two_pow_pos _)
        _ = 2 ^ p := by
            rw [← Nat.pow_add]
            congr 1
            omega
  · rw [cutTo_of_exceeds (by omega)]
    refine ⟨?_, ?_⟩
    · rw [Nat.le_div_iff_mul_le (Nat.two_pow_pos _), ← Nat.pow_add]
      have : p - 1 + (bitlen n - p) = bitlen n - 1 := by omega
      rwa [this]
    · rw [Nat.div_lt_iff_lt_mul (Nat.two_pow_pos _), ← Nat.pow_add]
      have : p + (bitlen n - p) = bitlen n := by omega
      rwa [this]

/-! ## The rounding engine -/

theorem reng_error {lsb r st s : Bool} {m : RoundMode} {f : FaultStatus} (h : reng lsb r st s m = .error f) :
    m = .exact ∧ (r || st) = true ∧ f = .inexact := by
  unfold reng at h
  split at h
  · rename_i hm
    injection h with h
    exact ⟨hm.1, hm.2, h.symm⟩
  · cases h

theorem reng_ok {lsb r st s : Bool} {m : RoundMode} {x : Bool × OrderRel} (h : reng lsb r st s m = .ok x) :
    (m = .exact → (r || st) = false) ∧ x.1 = incrementOf lsb r st s m ∧ x.2 = orderOf r st s x.1 := by
  unfold reng at h
  split at h
  · cases h
  · rename_i hm
    injection h with h
    subst h
    refine ⟨fun he => ?_, rfl, rfl⟩
    have : ¬ inexactOf r st = true := fun hi => hm ⟨he, hi⟩
    simpa [inexactOf] using this

/-! ## Roundings -/

/-- All that a rounding that delivers a value says: the engine agreed, and the value has the incremented
significand and an exponent within the bound. -/
theorem roundCut_ok {emax : Int} {c : Cut} {e : Int} {s : Bool} {p : Nat} {m : RoundMode} {r : Rounded}
    (h : roundCut emax c e s p m = .ok r) :
    reng (c.t % 2 == 1) c.r c.st s m = .ok (r.inc, r.ord) ∧
    r.z = .fin s (increment r.inc c.t e p).2 p (increment r.inc c.t e p).1 ∧
    (increment r.inc c.t e p).2 ≤ emax ∧ r.rb = c.r ∧ r.sb = c.st := by
  unfold roundCut at h
  split at h
  · cases h
  · rename_i inc ord hr
    split at h
    · cases h
    · rename_i he
      injection h with h
      subst h
      exact ⟨hr, rfl, not_lt.1 he, rfl, rfl⟩

/-- All that a rounding that fails says: the engine raised INEXACT, or the exponent exceeded the bound. -/
theorem roundCut_error {emax : Int} {c : Cut} {e : Int} {s : Bool} {p : Nat} {m : RoundMode} {f : FaultStatus}
    (h : roundCut emax c e s p m = .error f) :
    (f = .inexact ∧ m = .exact ∧ (c.r || c.st) = true) ∨
    (f = .expOverflow ∧ ∃ inc ord, reng (c.t % 2 == 1) c.r c.st s m = .ok (inc, ord) ∧
      emax < (increment inc c.t e p).2) := by
  unfold roundCut at h
  split at h
  · rename_i f' hr
    injection h with h
    obtain ⟨hm, hx, hf⟩ := reng_error hr
    exact .inl ⟨h ▸ hf, hm, hx⟩
  · rename_i inc ord hr
    split at h
    · rename_i he
      injection h with h
      exact .inr ⟨h.symm, inc, ord, hr, he⟩
    · cases h

/-- The increment keeps a significand of `p` bits and moves the exponent by at most 1. -/
theorem increment_range {inc : Bool} {t : Nat} {e : Int} {p : Nat} (hp : 1 ≤ p) (h1 : 2 ^ (p - 1) ≤ t)
    (h2 : t < 2 ^ p) :
    2 ^ (p - 1) ≤ (increment inc t e p).1 ∧ (increment inc t e p).1 < 2 ^ p ∧
      e ≤ (increment inc t e p).2 ∧ (increment inc t e p).2 ≤ e + 1 := by
  have hlt : 2 ^ (p - 1) < 2 ^ p := Nat.pow_lt_pow_right (by omega) (by omega)
  unfold increment
  split
  · exact ⟨h1, h2, by omega, by omega⟩
  · split
    · exact ⟨le_refl _, hlt, by omega, by omega⟩
    · refine ⟨by simp only; omega, ?_, by omega, by omega⟩
      simp only
      omega

/-- A delivered value is a finite Float of the target precision and the given sign. -/
theorem roundSOR_ok_fin {emax : Int} {n : Nat} {q : Int} {s : Bool} {p : Nat} {m : RoundMode} {r : Rounded}
    (hn : 0 < n) (hp : 1 ≤ p) (h : roundSOR emax n q s p m = .ok r) :
    ∃ e t, r.z = .fin s e p t ∧ 2 ^ (p - 1) ≤ t ∧ t < 2 ^ p ∧ q + bitlen n - 1 ≤ e ∧ e ≤ q + bitlen n ∧
      e ≤ emax := by
  obtain ⟨-, hz, he, -, -⟩ := roundCut_ok h
  obtain ⟨h1, h2⟩ := cutTo_range hn hp
  obtain ⟨h3, h4, h5, h6⟩ := increment_range (inc := r.inc) (e := q + bitlen n - 1) hp h1 h2
  exact ⟨_, _, hz, h3, h4, h5, by omega, he⟩

/-- A rounding fails only with INEXACT or EXP_OVERFLOW. -/
theorem roundSOR_error {emax : Int} {n : Nat} {q : Int} {s : Bool} {p : Nat} {m : RoundMode} {f : FaultStatus}
    (h : roundSOR emax n q s p m = .error f) : (f = .inexact ∧ m = .exact) ∨ f = .expOverflow := by
  rcases roundCut_error h with ⟨hf, hm, -⟩ | ⟨hf, -⟩
  · exact .inl ⟨hf, hm⟩
  · exact .inr hf

/-! ## Operands -/

theorem withPrecision_of_valid {α : Type} {b : Build} {p : Nat} (k : Except FaultStatus α) (h : 1 ≤ p ∧ p ≤ b.pMax) :
    withPrecision b p k = k := if_neg (by omega)

theorem withPrecision_of_invalid {α : Type} {b : Build} {p : Nat} (k : Except FaultStatus α)
    (h : ¬(1 ≤ p ∧ p ≤ b.pMax)) : withPrecision b p k = .error .invalidPrecision := if_pos (by omega)

theorem withOperands_of_some {α : Type} {b : Build} {X Y : Nat} {x y : Flt} (k : Flt → Flt → Except FaultStatus α)
    (hx : decodeBundle b X = some x) (hy : decodeBundle b Y = some y) : withOperands b X Y k = k x y := by
  simp [withOperands, hx, hy]

theorem withOperands_of_none {α : Type} {b : Build} {X Y : Nat} (k : Flt → Flt → Except FaultStatus α)
    (h : decodeBundle b X = none ∨ decodeBundle b Y = none) : withOperands b X Y k = .error .invalidOperand := by
  unfold withOperands
  cases hx : decodeBundle b X with
  | none => rfl
  | some x =>
    rcases h with h | h
    · rw [hx] at h
      cases h
    · simp [h]

theorem orderOperands_fst_ge (x y : Magnitude) : (orderOperands x y).2.e ≤ (orderOperands x y).1.e := by
  unfold orderOperands
  split <;> simp only <;> omega

end Sys2Proof.Machine
end

