-- ==== Sys2Proof/Laws/Commands.lean ====
section
/-! SUPPORT. The cases of AddCore and what each command answers. -/

namespace Sys2Proof.Machine

/-! ## The cases of AddCore (rule R500) -/

@[simp] theorem addCore_nan_left (b : Build) (p : Nat) (m : RoundMode) (y : Flt) :
    addCore b p m .nan y = special .nan := by cases y <;> rfl

@[simp] theorem addCore_nan_right (b : Build) (p : Nat) (m : RoundMode) (x : Flt) :
    addCore b p m x .nan = special .nan := by cases x <;> rfl

@[simp] theorem addCore_inf_inf (b : Build) (p : Nat) (m : RoundMode) (sx sy : Bool) :
    addCore b p m (.inf sx) (.inf sy) = special (if sx = sy then .inf sx else .nan) := rfl

theorem addCore_inf_left (b : Build) (p : Nat) (m : RoundMode) (s : Bool) (y : Flt) (h1 : y ≠ .nan)
    (h2 : ∀ t, y ≠ .inf t) : addCore b p m (.inf s) y = special (.inf s) := by
  cases y with
  | nan => exact absurd rfl h1
  | inf t => exact absurd rfl (h2 t)
  | zero t => rfl
  | fin t e p m => rfl

theorem addCore_inf_right (b : Build) (p : Nat) (m : RoundMode) (s : Bool) (x : Flt) (h1 : x ≠ .nan)
    (h2 : ∀ t, x ≠ .inf t) : addCore b p m x (.inf s) = special (.inf s) := by
  cases x with
  | nan => exact absurd rfl h1
  | inf t => exact absurd rfl (h2 t)
  | zero t => rfl
  | fin t e p m => rfl

@[simp] theorem addCore_zero_zero (b : Build) (p : Nat) (m : RoundMode) (sx sy : Bool) :
    addCore b p m (.zero sx) (.zero sy) = special (zeroSum sx sy m) := rfl

@[simp] theorem addCore_zero_fin (b : Build) (p : Nat) (m : RoundMode) (z s : Bool) (e : Int) (q t : Nat) :
    addCore b p m (.zero z) (.fin s e q t) = single b s ⟨e, q, t⟩ p m := rfl

@[simp] theorem addCore_fin_zero (b : Build) (p : Nat) (m : RoundMode) (z s : Bool) (e : Int) (q t : Nat) :
    addCore b p m (.fin s e q t) (.zero z) = single b s ⟨e, q, t⟩ p m := rfl

@[simp] theorem addCore_fin_fin (b : Build) (p : Nat) (m : RoundMode) (s s' : Bool) (e e' : Int) (q t q' t' : Nat) :
    addCore b p m (.fin s e q t) (.fin s' e' q' t') =
      if s ≠ s' then .error .subRequired else sum b s ⟨e, q, t⟩ ⟨e', q', t'⟩ p m := rfl

/-- Whatever the operands that are rounded, AddCore delivers the rounding of their exact value under some regime. -/
theorem addCore_of_exactValue {x y : Flt} {sg : Bool} {v : Exact} (b : Build) (p : Nat) (m : RoundMode)
    (h : exactValueOf x y = some (sg, v)) :
    ∃ g, addCore b p m x y = deliverRounded (roundSOR b.emax v.n v.q sg p m) g := by
  unfold exactValueOf at h
  split at h
  · cases h
    exact ⟨.general, rfl⟩
  · cases h
    exact ⟨.general, rfl⟩
  · split at h
    · rename_i hs
      cases h
      exact ⟨_, if_neg (by simp [hs])⟩
    · cases h
  · cases h

/-! ## Responses -/

theorem responseOf_special (b : Build) (v : Flt) :
    responseOf b (special v) = { word := 0, z := encodeBundle b v } := by
  simp [responseOf, special, okResponse, packResponse, orderCode, regimeCode]

theorem responseOf_error (b : Build) (f : FaultStatus) : responseOf b (.error f) = faultResponse f := rfl

/-- The word of a fault response is its status code (rule R603). -/
theorem faultResponse_eq (f : FaultStatus) :
    faultResponse f = { word := BitVec.ofNat 32 (faultCode f), z := 0 } := by
  simp [faultResponse, packResponse]

theorem statusOf_fault (f : FaultStatus) : statusOf (faultResponse f).word = faultCode f := by cases f <;> decide

/-- The low four bits of a response word are its status (rule R320). -/
theorem statusOf_packResponse {st ord g : Nat} {rb sb inc : Bool} (h : st < 16) :
    statusOf (packResponse st ord g rb sb inc) = st := by
  have h1 := Bool.toNat_le rb
  have h2 := Bool.toNat_le sb
  have h3 := Bool.toNat_le inc
  simp only [statusOf, packResponse, field, BitVec.toNat_ofNat]
  omega

theorem statusOf_ok (b : Build) (d : Delivery) : statusOf (okResponse b d).word = 0 :=
  statusOf_packResponse (by omega)

theorem faultCode_pos (f : FaultStatus) : 1 ≤ faultCode f ∧ faultCode f ≤ 6 := by cases f <;> decide

/-- A response has STATUS OK exactly when its operation did not fail. -/
theorem statusOf_responseOf_eq_zero {b : Build} {d : Except FaultStatus Delivery} :
    statusOf (responseOf b d).word = 0 ↔ ∃ v, d = .ok v := by
  cases d with
  | ok v => simp [responseOf, statusOf_ok]
  | error f =>
    have := (faultCode_pos f).1
    simp only [responseOf, statusOf_fault, reduceCtorEq, exists_false, iff_false]
    omega

/-- Every response bundle fits its port. -/
theorem responseOf_z_lt (b : Build) (d : Except FaultStatus Delivery) :
    (responseOf b d).z < 2 ^ b.bundleBits := by
  cases d with
  | ok v => exact encodeBundle_lt b v.z
  | error f => exact Nat.two_pow_pos _

/-! ## What a command answers -/

/-- A command with a valid precision and decoded operands answers AddCore at its target precision and mode. -/
theorem answerOf_of_holds {i : Instr} {s : State} {x y : Flt} (hp : i.PrecisionValid s.build)
    (hx : decodeBundle s.build s.req.x = some x) (hy : decodeBundle s.build s.req.y = some y) :
    answerOf i s =
      (match i with
        | .addPrecRound tprec rm => addCore s.build tprec rm x y
        | .addPrec tprec => addCore s.build tprec .nearest x y
        | .addRound rm => addCore s.build (operandPrecision x y) rm x y
        | .add => addCore s.build (operandPrecision x y) .nearest x y) := by
  cases i with
  | addPrecRound p m => exact (withPrecision_of_valid _ hp).trans (withOperands_of_some _ hx hy)
  | addPrec p => exact (withPrecision_of_valid _ hp).trans (withOperands_of_some _ hx hy)
  | addRound m => exact withOperands_of_some _ hx hy
  | add => exact withOperands_of_some _ hx hy

/-- A command with a valid precision and an operand that does not decode answers INVALID_OPERAND. -/
theorem answerOf_of_invalid_operand {i : Instr} {s : State} (hp : i.PrecisionValid s.build)
    (h : decodeBundle s.build s.req.x = none ∨ decodeBundle s.build s.req.y = none) :
    answerOf i s = .error .invalidOperand := by
  cases i with
  | addPrecRound p m => exact (withPrecision_of_valid _ hp).trans (withOperands_of_none _ h)
  | addPrec p => exact (withPrecision_of_valid _ hp).trans (withOperands_of_none _ h)
  | addRound m => exact withOperands_of_none _ h
  | add => exact withOperands_of_none _ h

/-- A command whose target precision is out of range answers INVALID_PRECISION. -/
theorem answerOf_of_invalid_precision {i : Instr} {s : State} (hp : ¬ i.PrecisionValid s.build) :
    answerOf i s = .error .invalidPrecision := by
  cases i with
  | addPrecRound p m => exact withPrecision_of_invalid _ hp
  | addPrec p => exact withPrecision_of_invalid _ hp
  | addRound m => exact absurd trivial hp
  | add => exact absurd trivial hp

end Sys2Proof.Machine
end

