-- ==== Sys2Proof/Laws/Kernels.lean ====
section
/-! SUPPORT. The cases of the datapath's shared operations, so that no proof unfolds them. -/

namespace Sys2Proof.Machine

/-! ## Word primitives (rules R405 to R408) -/

theorem adc_fst (w a b c : Nat) : (adc w a b c).1 = (a + b + c) % 2 ^ w := rfl

theorem adc_snd (w a b c : Nat) : (adc w a b c).2 = (a + b + c) / 2 ^ w := rfl

@[simp] theorem mwadd_nil_left (w : Nat) (bs : List Nat) (c : Nat) : mwadd w [] bs c = ([], c) := by cases bs <;> rfl

@[simp] theorem mwadd_nil_right (w : Nat) (as : List Nat) (c : Nat) : mwadd w as [] c = ([], c) := by cases as <;> rfl

theorem mwadd_cons (w a b : Nat) (as bs : List Nat) (c : Nat) :
    mwadd w (a :: as) (b :: bs) c =
      ((a + b + c) % 2 ^ w :: (mwadd w as bs ((a + b + c) / 2 ^ w)).1, (mwadd w as bs ((a + b + c) / 2 ^ w)).2) := rfl

/-- Nothing is lost by a shift: the two parts give the number back. -/
theorem shr_parts (v d : Nat) : (shr v d).1 * 2 ^ d + (shr v d).2 = v := by
  rw [shr, Nat.mul_comm]
  exact Nat.div_add_mod v (2 ^ d)

/-! ## The alignment shifter (rule R410) -/

theorem align_zero (m p : Nat) : align m p 0 = { t := m, r := false, st := false } := rfl

theorem align_of_le {m p d : Nat} (h1 : 1 ≤ d) (h2 : d ≤ p) :
    align m p d = { t := m / 2 ^ d, r := bitAt m (d - 1), st := decide (m % 2 ^ (d - 1) ≠ 0) } := by
  rw [align, if_neg (by omega), if_pos h2]

theorem align_of_gt {m p d : Nat} (h : p < d) : align m p d = { t := 0, r := false, st := true } := by
  rw [align, if_neg (by omega), if_neg (by omega)]

/-! ## The fixed-width kernels (rules R443, R444) -/

theorem postNormalize_of_carry {p sum : Nat} (r st : Bool) (e : Int) (h : 2 ^ p ≤ sum) :
    postNormalize p sum r st e = ({ t := sum / 2, r := bitAt sum 0, st := r || st }, e + 1) := if_pos h

theorem postNormalize_of_fits {p sum : Nat} (r st : Bool) (e : Int) (h : sum < 2 ^ p) :
    postNormalize p sum r st e = ({ t := sum, r := r, st := st }, e) := if_neg (by omega)

/-- A rounding on words fails as the engine does, and otherwise with EXP_OVERFLOW alone. -/
theorem roundWords_error {w : Nat} {emax : Int} {c : Cut} {e : Int} {s : Bool} {p : Nat} {m : RoundMode}
    {f : FaultStatus} (h : roundWords w emax c e s p m = .error f) :
    (f = .inexact ∧ m = .exact ∧ (c.r || c.st) = true) ∨ f = .expOverflow := by
  unfold roundWords at h
  split at h
  · rename_i f' hr
    injection h with h
    obtain ⟨hm, hx, hf⟩ := reng_error hr
    exact .inl ⟨h ▸ hf, hm, hx⟩
  · rename_i inc ord hr
    have key : ∀ (c : Prop) [Decidable c] (x : Rounded),
        (if c then (.error .expOverflow : Except FaultStatus Rounded) else .ok x) = .error f → f = .expOverflow := by
      intro c _ x hx
      split at hx
      · injection hx with hx
        exact hx.symm
      · cases hx
    exact .inr (key _ _ h)

/-! ## Exact sums (rules R402, R451) -/

theorem addExact_q (ma : Nat) (qa : Int) (mb : Nat) (qb : Int) : (addExact ma qa mb qb).q = min qa qb := rfl

theorem addExact_n (ma : Nat) (qa : Int) (mb : Nat) (qb : Int) :
    (addExact ma qa mb qb).n = ma * 2 ^ (qa - min qa qb).toNat + mb * 2 ^ (qb - min qa qb).toNat := rfl

theorem compressedSum_of_below {a b : Magnitude} {p : Nat} (h : b.e < guardPosition a p) :
    compressedSum a b p = addExact a.m a.ulp 1 (guardPosition a p - 1) := if_pos h

theorem compressedSum_of_above {a b : Magnitude} {p : Nat} (h : guardPosition a p ≤ b.e) :
    compressedSum a b p = exactSum a b := if_neg (by omega)

/-! ## The dispatcher (rules R440, R441, R450) -/

theorem dispatchKernel_of_general {w : Nat} {x y : Magnitude} {p : Nat} (emax : Int) (s : Bool) (m : RoundMode)
    (h : regime w x.p y.p p = .general) :
    dispatchKernel w emax x y s p m = generalKernel emax (orderOperands x y).1 (orderOperands x y).2 s p m := if_pos h

theorem dispatchKernel_of_fixed {w : Nat} {x y : Magnitude} {p : Nat} (emax : Int) (s : Bool) (m : RoundMode)
    (h : regime w x.p y.p p ≠ .general) :
    dispatchKernel w emax x y s p m = fixedKernel w emax (orderOperands x y).1 (orderOperands x y).2 s p m := if_neg h

end Sys2Proof.Machine
end

