-- ==== Sys2Proof/Laws/PerInstr.lean ====
section
/-! SUPPORT. Families of statements about the commands as syntax, one lemma per constructor. -/

namespace Sys2Proof.Laws

/-- The mask of a command's row in spec/opcode_table.json. -/
def EncodeMatchesTable.mask : Instr → Word32
  | .addPrecRound _ _ => 0x0000008F#32
  | .addPrec _ => 0x000000FF#32
  | .addRound _ => 0xFFFFFF8F#32
  | .add => 0xFFFFFFFF#32

/-- The match value of a command's row in spec/opcode_table.json. -/
def EncodeMatchesTable.value : Instr → Word32
  | .addPrecRound _ _ => 0x00000000#32
  | .addPrec _ => 0x00000001#32
  | .addRound _ => 0x00000002#32
  | .add => 0x00000003#32

/-- The fixed bits of a command's encoding are those of its opcode-table row. -/
def EncodeMatchesTable.Statement (i : Instr) : Prop :=
  encode i &&& EncodeMatchesTable.mask i = EncodeMatchesTable.value i

/-- The low byte of a command word does not depend on its target precision. -/
theorem EncodeMatchesTable.low_byte (tprec rm opc : Nat) (mask : Word32) (hm : mask.toNat < 256) :
    commandWord tprec rm opc &&& mask = commandWord 0 rm opc &&& mask := by
  apply BitVec.eq_of_getLsbD_eq
  intro k hk
  simp only [commandWord, BitVec.getLsbD_and, BitVec.getLsbD_ofNat, Nat.zero_mul, Nat.zero_add]
  by_cases h8 : k < 8
  · have : (tprec * 2 ^ 8 + rm * 2 ^ 4 + opc).testBit k = (rm * 2 ^ 4 + opc).testBit k := by
      have e1 : tprec * 2 ^ 8 + rm * 2 ^ 4 + opc
          = 2 ^ 8 * (tprec + (rm * 2 ^ 4 + opc) / 2 ^ 8) + (rm * 2 ^ 4 + opc) % 2 ^ 8 := by omega
      rw [e1, Nat.testBit_two_pow_mul_add _ (Nat.mod_lt _ (Nat.two_pow_pos 8)), if_pos h8, Nat.testBit_mod_two_pow]
      simp [h8]
    rw [this]
  · have : mask.getLsbD k = false := by
      rw [← BitVec.testBit_toNat]
      exact Nat.testBit_lt_two_pow (lt_of_lt_of_le hm (Nat.pow_le_pow_right (n := 2) (by omega) (by omega : 8 ≤ k)))
    simp [this]

theorem EncodeMatchesTable.addPrecRound (tprec : Nat) (rm : RoundMode) :
    EncodeMatchesTable.Statement (.addPrecRound tprec rm) := by
  have h0 : commandWord 0 (modeCode rm) 0 &&& 0x0000008F#32 = 0x00000000#32 := by cases rm <;> decide
  exact (EncodeMatchesTable.low_byte tprec (modeCode rm) 0 0x0000008F#32 (by decide)).trans h0

theorem EncodeMatchesTable.addPrec (tprec : Nat) : EncodeMatchesTable.Statement (.addPrec tprec) := by
  have h0 : commandWord 0 0 1 &&& 0x000000FF#32 = 0x00000001#32 := by decide
  exact (EncodeMatchesTable.low_byte tprec 0 1 0x000000FF#32 (by decide)).trans h0

theorem EncodeMatchesTable.addRound (rm : RoundMode) : EncodeMatchesTable.Statement (.addRound rm) := by
  have h0 : commandWord 0 (modeCode rm) 2 &&& 0xFFFFFF8F#32 = 0x00000002#32 := by cases rm <;> decide
  exact h0

theorem EncodeMatchesTable.add : EncodeMatchesTable.Statement .add := by
  have h0 : commandWord 0 0 3 &&& 0xFFFFFFFF#32 = 0x00000003#32 := by decide
  exact h0

end Sys2Proof.Laws
end

