-- ==== Sys2Proof/Tests/Slice0.lean ====
section
/-! SUPPORT. Tests against the spec's worked examples and test vectors, smoke tests of the checks, and for every
statement with hypotheses a witness that meets them. A test names its source in 95_test_vectors.md by its id. -/

namespace Sys2Proof.Tests

open Sys2Proof.Machine

/-! ## Builds and small states -/

/-- The test configuration TC64, with `LAT_MAX = 2`. -/
def tc64 : Build := { w := 64, nwMax := 4, emin := -2147483648, emax := 2147483647, latMax := 2 }

/-- The test configuration TC8, with `LAT_MAX = 2`. -/
def tc8 : Build := { w := 8, nwMax := 4, emin := -2147483648, emax := 2147483647, latMax := 2 }

/-- TC8 with the one exponent 0. -/
def tight : Build := { tc8 with emin := 0, emax := 0 }

/-- Levels that ask for nothing. -/
def quiet : Pins := { rst := false, reqValid := false, reqCmd := 0, reqX := 0, reqY := 0, rspReady := false }

/-- Levels that take a response. -/
def ready : Pins := { quiet with rspReady := true }

/-- Levels that reset. -/
def resetting : Pins := { quiet with rst := true }

/-- Levels that offer a request. -/
def offer (c : Word32) (x y : Nat) : Pins := { ready with reqValid := true, reqCmd := c, reqX := x, reqY := y }

/-- A machine that waits for a request, with a schedule of levels. -/
def idleWith (b : Build) (host : List Pins) : State :=
  { build := b, st := .idle, req := ⟨0, 0, 0⟩, rsp := ⟨0, 0⟩, lat := 0, host := host, edges := 0 }

/-- A machine whose latched request is due at the next edge. -/
def due (b : Build) (c : Word32) (x y : Nat) : State :=
  { idleWith b [quiet] with st := .busy, req := ⟨c, x, y⟩, lat := 1 }

/-- A machine that presents a response. -/
def presenting (host : List Pins) : State := { idleWith tc8 host with st := .done, rsp := ⟨0xA50, 7⟩ }

/-- A due request for two Floats. -/
def dueFor (b : Build) (i : Instr) (x y : Flt) : State := due b (encode i) (encodeBundle b x) (encodeBundle b y)

/-- The next state of an outcome that is one. -/
def after : Host.Outcome State Fault Refusal → Option State
  | .next s => some s
  | _ => none

/-- The response after a step. -/
def answer (o : Host.Outcome State Fault Refusal) : Option Response := (after o).map (fun s => s.rsp)

/-- The Float `1#1`. -/
def one : Flt := .fin false 0 1 1

/-- The Float `2#1`. -/
def two : Flt := .fin false 1 1 1

/-! ## Smoke tests of the checks: an ill-formed term for each -/

theorem test_build_legal : tc64.Legal ∧ tc8.Legal ∧ tight.Legal := by decide
theorem test_build_refuses_word_width : ¬ { tc8 with w := 12 }.Legal := by decide
theorem test_build_refuses_few_words : ¬ { tc8 with nwMax := 2 }.Legal := by decide
theorem test_build_refuses_wide_precision : ¬ { tc8 with nwMax := 2097152 }.Legal := by decide
theorem test_build_refuses_low_emin : ¬ { tc8 with emin := -2147483649 }.Legal := by decide
theorem test_build_refuses_positive_emin : ¬ { tc8 with emin := 1 }.Legal := by decide
theorem test_build_refuses_negative_emax : ¬ { tc8 with emax := -1 }.Legal := by decide
theorem test_build_refuses_high_emax : ¬ { tc8 with emax := 2147483648 }.Legal := by decide
theorem test_build_refuses_no_latency : ¬ { tc8 with latMax := 0 }.Legal := by decide

theorem test_instr_refuses_wide_tprec :
    ¬ (Instr.addPrecRound 16777216 .nearest).WellFormed ∧ ¬ (Instr.addPrec 16777216).WellFormed := by decide
theorem test_precision_refuses_zero_and_above :
    ¬ (Instr.addPrec 0).PrecisionValid tc8 ∧ ¬ (Instr.addPrecRound 33 .floor).PrecisionValid tc8 := by decide

theorem test_float_refuses_precision : ¬ (Flt.fin false 0 0 0).Legal tc8 ∧ ¬ (Flt.fin false 0 33 4294967296).Legal tc8 := by
  decide
theorem test_float_refuses_exponent : ¬ (Flt.fin false (-1) 1 1).Legal tight ∧ ¬ (Flt.fin false 1 1 1).Legal tight := by
  decide
theorem test_float_refuses_significand : ¬ (Flt.fin false 0 2 1).Legal tc8 ∧ ¬ (Flt.fin false 0 2 4).Legal tc8 := by
  decide
theorem test_magnitude_refuses :
    ¬ (Magnitude.mk 0 0 0).Legal ∧ ¬ (Magnitude.mk 0 2 1).Legal ∧ ¬ (Magnitude.mk 0 2 4).Legal := by decide

/-! ## Decoding: words written out from the fields of rule R300 -/

theorem test_decode_add_prec_round :
    decode 0b000000000000000000000001_0_000_0000#32 = .ok (.addPrecRound 1 .nearest) := by decide
theorem test_decode_add_prec_round_exact :
    decode 0b000000000000000000001000_0_101_0000#32 = .ok (.addPrecRound 8 .exact) := by decide
theorem test_decode_add_prec : decode 0b000000000000000000000010_0_000_0001#32 = .ok (.addPrec 2) := by decide
theorem test_decode_add_round : decode 0b000000000000000000000000_0_100_0010#32 = .ok (.addRound .away) := by decide
theorem test_decode_add : decode 0b000000000000000000000000_0_000_0011#32 = .ok .add := by decide
theorem test_decode_modes :
    ([0x02, 0x12, 0x22, 0x32, 0x42, 0x52].map (fun w => decodeTableWord 32 w)) =
      [RoundMode.nearest, .floor, .ceil, .trunc, .away, .exact].map (fun m => some (.addRound m)) := by decide

/-- One word for each condition of rule R304. -/
theorem test_decode_rejects_by_name :
    decode 0x00000104#32 = .error .reservedOpc ∧ decode 0x00000180#32 = .error .reservedBit ∧
    decode 0x00000160#32 = .error .reservedMode ∧ decode 0x00000170#32 = .error .reservedMode ∧
    decode 0x00000111#32 = .error .unusedMode ∧ decode 0x00000102#32 = .error .unusedPrecision ∧
    decode 0x00000103#32 = .error .unusedPrecision := by decide

theorem test_encode :
    encode (.addPrecRound 16777215 .exact) = 0xFFFFFF50#32 ∧ encode (.addPrec 256) = 0x00010001#32 ∧
    encode (.addRound .ceil) = 0x00000022#32 ∧ encode .add = 0x00000003#32 := by decide

/-- V20 and V4: bundles of TC8 as 95_test_vectors.md writes them. -/
theorem test_bundles :
    decodeBundle tc8 0x0000FFF00100000C00000000 = some (.fin false 0 12 0xFFF) ∧
    encodeBundle tc8 (.fin false 1 12 0x880) = 0x000088000100000C00000001 ∧
    decodeBundle tc8 0x0400000000000000 = some (.zero true) ∧ encodeBundle tc8 (.inf true) = 0x0600000000000000 ∧
    decodeBundle tc8 0x0300000000000000 = some .nan := by decide

/-- V52a, c, d, e, f, h, i, j, k and l, with their words cut to those of TC8: each check of rule R312 refuses. -/
theorem test_bundles_refused :
    ([0x800900000100000000, 0x0700000000000000, 0x0000000000000005, 0x0000000100000000, 0x010200000000000000,
      0x400100000100000000, 0xC10100000200000000, 0x01800100000100000000, 0x800100000000000000,
      0x800100002100000000].map (decodeBundle tc8)) = List.replicate 10 none := by decide

theorem test_bundle_exponent_bounds :
    decodeBundle tight 0x800100000100000001 = none ∧ decodeBundle tight 0x8001000001FFFFFFFF = none ∧
    decodeBundle tight 0x800100000100000000 = some one := by decide

/-! ## Operations: the worked examples of the rules -/

/-- R410: A5, and the two worked examples that agree with the pseudocode (log 5). -/
theorem test_align :
    align 0b1011 4 4 = ⟨0, true, true⟩ ∧ align 0b11 2 3 = ⟨0, false, true⟩ ∧ align 0b101 3 1 = ⟨0b10, true, false⟩ := by
  decide

/-- R427. -/
theorem test_reng :
    reng true true false false .nearest = .ok (true, .greater) ∧
    reng false true false true .nearest = .ok (false, .greater) ∧
    reng false false true true .floor = .ok (true, .less) := by decide

/-- R430. -/
theorem test_roundSOR :
    roundSOR 10 3 0 false 1 .nearest =
      .ok { z := .fin false 2 1 1, ord := .greater, rb := true, sb := false, inc := true } := by decide

/-- V20 through the fixed kernel, the padded realization and the dispatcher. -/
theorem test_kernels :
    let x : Magnitude := ⟨0, 12, 0xFFF⟩
    let y : Magnitude := ⟨-3, 12, 0x801⟩
    let r : Except FaultStatus Rounded :=
      .ok { z := .fin false 1 12 0x880, ord := .greater, rb := true, sb := true, inc := true }
    fixedKernel 8 99 x y false 12 .nearest = r ∧ paddedKernel 8 99 x y false 12 .nearest = r ∧
      dispatchKernel 8 99 y x false 12 .nearest = r := by decide

/-- V40b: sticky compression in the general kernel. -/
theorem test_generalKernel :
    generalKernel 99 ⟨0, 4, 8⟩ ⟨-20, 1, 1⟩ false 4 .ceil =
      .ok { z := .fin false 0 4 9, ord := .greater, rb := false, sb := true, inc := true } := by decide

/-! ## One step of each instruction -/

/-- V1, on the ports of TC64. -/
theorem test_add_prec_round :
    answer (step (due tc64 0x00000100#32
      0x00000000000000000000000000000000000000000000000080000000000000000100000100000000
      0x00000000000000000000000000000000000000000000000080000000000000000100000100000001)) =
    some ⟨0x00000A50#32, 0x00000000000000000000000000000000000000000000000080000000000000000100000100000002⟩ := by
  decide

/-- V6c: EXACT of an inexact sum. -/
theorem test_add_prec_round_inexact :
    answer (step (due tc8 0x00000850#32 0xAC0100000600000003 0xABC00100000CFFFFFFFE)) = some ⟨0x00000004#32, 0⟩ := by
  decide

/-- V30 in TC8. -/
theorem test_add_prec :
    answer (step (due tc8 0x00000201#32 0x800100000100000000 0x800100000100000001)) =
      some ⟨0x000001C0#32, 0xC00100000200000001⟩ := by decide

/-- A target precision above `P_MAX = 32`, with an operand that is invalid too. -/
theorem test_add_prec_invalid : answer (step (due tc8 0x00002101#32 0x400100000100000000 0)) = some ⟨2#32, 0⟩ := by
  decide

/-- V6e. -/
theorem test_add_round :
    answer (step (due tc8 0x00000002#32 0xAC0100000600000003 0xABC00100000CFFFFFFFE)) =
      some ⟨0x00000FD0#32, 0xB1600100000C00000003⟩ := by decide

/-- V4b. -/
theorem test_add_round_zeros :
    answer (step (due tc64 0x00000012#32 0 0x0400000000000000)) = some ⟨0#32, 0x0400000000000000⟩ := by decide

/-- V15, as whole TC8 bundles. -/
theorem test_add :
    answer (step (due tc8 0x00000003#32 0x000000800100000800000000 0x000000C001000008FFFFFFF8)) =
      some ⟨0x00000E90#32, 0x000000810100000800000000⟩ := by decide

/-- V55c in TC8. -/
theorem test_add_opposite_signs :
    answer (step (due tc8 0x00000003#32 0xC0010000027FFFFFFF 0xC0050000027FFFFFFF)) = some ⟨6#32, 0⟩ := by decide

/-- An illegal word is answered, and nothing stops. -/
theorem test_illegal_word : answer (step (due tc8 0x00000004#32 0 0)) = some ⟨1#32, 0⟩ := by decide

/-! ## Edges and the host's notation -/

/-- Trace V90, edge 5: the response is taken and the pending request is not accepted. -/
theorem test_take : after (step (presenting [offer 0x201#32 0 0])) =
    some { presenting [] with st := .idle, edges := 1 } := by decide

/-- Trace V90, edge 7: an operation is discarded. -/
theorem test_reset_busy :
    (after (step { due tc8 3 0 0 with host := [resetting] })).map (fun s => (s.st, s.lat)) = some (.idle, 0) := by decide

theorem test_withFetchWord :
    decodeTableWord 32 0x12 = some (.addRound .floor) ∧
    answer (step (({ idleWith tc8 [resetting] with req := ⟨0, 0, 0x0400000000000000⟩ }).withFetchWord 32 0x12)) =
      some ⟨0#32, 0x0400000000000000⟩ := by decide

/-- `ADD +0, +0` as the first command after reset, on the zeros of log 6. -/
theorem test_first_command : answer (step (State.reset.withFetchWord 32 0x3)) = some ⟨0#32, 0⟩ := by decide

theorem test_outputs :
    (presenting [quiet]).outputs = { reqReady := false, rspValid := true, rspWord := 0xA50#32, rspZ := 7 } ∧
    (idleWith tc8 [quiet]).outputs.reqReady = true ∧ (idleWith tc8 [resetting]).outputs.reqReady = false := by decide

/-- Literals of 95_test_vectors.md section 0. -/
theorem test_literals :
    parseLiteral "0x80ffp-15#16".toList = some (.fin false 0 16 0x80FF) ∧
    parseLiteral "-1.5#2".toList = some (.fin true 0 2 3) ∧ parseLiteral "0b1.011p-3#4".toList = some (.fin false (-3) 4 11) ∧
    parseLiteral "1.5#1".toList = none ∧ parseLiteral "0#3".toList = none ∧ parseLiteral "-Inf".toList = some (.inf true) := by
  decide

/-- P2, lines 3 and 4, with `v` as line 2 leaves it: the script stops at the second line. -/
theorem test_script :
    (["w <- ADD.PR.EXACT #4, v, 0.125#1", "x <- ADD.PR.EXACT #4, w, 0.0625#1", "y <- ADD x, 1#1"].mapM
      (fun l => parseLine l.toList)).map (fun ls => (runScript tc8 ls [(['v'], .fin false 0 2 3)]).ended) =
      some (.stopped 4) := by decide

/-! ## Witnesses: for each statement with hypotheses, a case that meets them all -/

theorem witness_DecodeEncodeEveryCommand :
    (Instr.addPrecRound 16777215 .exact).WellFormed ∧ (Instr.addPrec 0).WellFormed ∧ (Instr.addRound .ceil).WellFormed ∧
    Instr.add.WellFormed := by decide

theorem witness_LegalWordIsEncodingOfItsCommand : decode 0xFFFFFF50#32 = .ok (.addPrecRound 16777215 .exact) := by decide

theorem witness_IllegalWordsAreAnsweredIllegal :
    (due tc8 0x00000160#32 1 2).Completes ∧ ∃ e, decode (due tc8 0x00000160#32 1 2).req.cmd = .error e :=
  ⟨by decide, .reservedMode, by decide⟩

theorem witness_CommandWordIsFieldConcatenation : 16777215 < 2 ^ 24 := by decide

theorem witness_BundleDecodeEncode : tc8.Legal ∧ (Flt.fin true (-3) 12 0x801).Legal tc8 ∧ Flt.nan.Legal tc8 := by decide

theorem witness_LegalBundleIsCanonical :
    tc8.Legal ∧ 0x0000FFF00100000C00000000 < 2 ^ tc8.bundleBits ∧
    decodeBundle tc8 0x0000FFF00100000C00000000 = some (.fin false 0 12 0xFFF) := by decide

/-- Each class; no padding at the greatest precision, and unused words with padding below it. -/
theorem witness_SignificandIsLeftAligned :
    tc8.Legal ∧ Flt.nan.Legal tc8 ∧ (Flt.inf true).Legal tc8 ∧ (Flt.zero true).Legal tc8 ∧
    (Flt.fin false 0 32 0x80000001).Legal tc8 ∧ (Flt.fin true (-1) 12 0xFFF).Legal tc8 := by decide

theorem witness_FaultResponsesAndReservedCodes :
    ((respondTo tc8 ⟨4#32, 0, 0⟩).word.extractLsb' 0 4).toNat ≠ 0 := by decide

theorem witness_WordAdderIsExact : 255 < 2 ^ 8 ∧ 255 < 2 ^ 8 ∧ 1 ≤ 1 := by decide

theorem witness_MultiWordAdderIsExact :
    [255, 1].length = [1, 255].length ∧ (∀ a ∈ [255, 1], a < 2 ^ 8) ∧ ∀ b ∈ [1, 255], b < 2 ^ 8 := by decide

/-- All ones carries; the significand below it does not. -/
theorem witness_IncrementCarriesOnAllOnes :
    0 < 8 ∧ 1 ≤ 3 ∧ 7 < 2 ^ 3 ∧ 6 < 2 ^ 3 ∧ (mwinc 8 (toWords 8 (wordsFor 8 3) (7 * 2 ^ padBits 8 3)) (padBits 8 3)).2 = 1 ∧
    (mwinc 8 (toWords 8 (wordsFor 8 3) (6 * 2 ^ padBits 8 3)) (padBits 8 3)).2 = 0 := by decide

/-- The distances where the clauses meet: 0, 1, `p` and `p + 1`. -/
theorem witness_AlignKeepsRoundAndSticky :
    1 ≤ 4 ∧ 2 ^ (4 - 1) ≤ 0b1011 ∧ 0b1011 < 2 ^ 4 ∧
    [0, 1, 4, 5].map (align 0b1011 4) =
      [⟨0b1011, false, false⟩, ⟨0b101, true, false⟩, ⟨0, true, true⟩, ⟨0, false, true⟩] := by decide

theorem witness_RoundingEngineDecisions :
    RoundMode.away ≠ .exact ∧ (true || false) = true ∧ reng true true false false .away = .ok (true, .greater) := by decide

/-- 11 at precision 3 in the two modes: 10 and 12. -/
theorem witness_TruncAndAwayBracketTheExactValue :
    0 < 11 ∧ 1 ≤ 3 ∧
    roundSOR 9 11 0 true 3 .trunc = .ok { z := .fin true 3 3 5, ord := .greater, rb := true, sb := false, inc := false } ∧
    roundSOR 9 11 0 true 3 .away = .ok { z := .fin true 3 3 6, ord := .less, rb := true, sb := false, inc := true } := by
  decide

theorem witness_FloorAndCeilAreDirected :
    0 < 11 ∧ 1 ≤ 3 ∧
    roundSOR 9 11 0 true 3 .floor = .ok { z := .fin true 3 3 6, ord := .less, rb := true, sb := false, inc := true } ∧
    roundSOR 9 11 0 true 3 .ceil = .ok { z := .fin true 3 3 5, ord := .greater, rb := true, sb := false, inc := false } := by
  decide

/-- A tie at precision 3, and one at precision 1. -/
theorem witness_NearestTiesToEven :
    0 < 11 ∧ 1 ≤ 3 ∧
    roundSOR 9 11 0 false 3 .nearest = .ok { z := .fin false 3 3 6, ord := .greater, rb := true, sb := false, inc := true } ∧
    roundSOR 9 3 0 false 1 .nearest = .ok { z := .fin false 2 1 1, ord := .greater, rb := true, sb := false, inc := true } := by
  decide

/-- A representable value at the bound of the exponent, and a value that is not representable. -/
theorem witness_ExactModeSucceedsIffRepresentable :
    0 < 10 ∧ 1 ≤ 3 ∧ roundSOR 9 11 0 false 3 .exact = .error .inexact ∧
    Representable 3 (scaled 10 0) ∧ (0 : Int) + bitlen 10 - 1 ≤ 3 ∧
    roundSOR 3 10 0 false 3 .exact = .ok { z := .fin false 3 3 5, ord := .equal, rb := false, sb := false, inc := false } :=
  ⟨by decide, by decide, by decide, ⟨5, 1, by decide, by decide, by norm_num [scaled]⟩, by decide, by decide⟩

/-- Nothing, under half, half and over half a unit above the multiple below; the last carries. -/
theorem witness_RoundingErrorBelowOneUlp :
    0 < 15 ∧ 1 ≤ 3 ∧
    roundSOR 9 20 0 false 3 .away = .ok { z := .fin false 4 3 5, ord := .equal, rb := false, sb := false, inc := false } ∧
    roundSOR 9 21 0 false 3 .trunc = .ok { z := .fin false 4 3 5, ord := .less, rb := false, sb := true, inc := false } ∧
    roundSOR 9 22 0 false 3 .nearest = .ok { z := .fin false 4 3 6, ord := .greater, rb := true, sb := false, inc := true } ∧
    roundSOR 9 23 0 false 3 .nearest = .ok { z := .fin false 4 3 6, ord := .greater, rb := true, sb := true, inc := true } ∧
    roundSOR 9 15 0 false 3 .away = .ok { z := .fin false 4 3 4, ord := .greater, rb := true, sb := false, inc := true } := by
  decide

theorem witness_LargerPrecisionNeverLosesAccuracy :
    0 < 11 ∧ 1 ≤ 2 ∧ 2 ≤ 3 ∧ RoundMode.floor ≠ .exact ∧
    roundSOR 9 11 0 false 2 .floor = .ok { z := .fin false 3 2 2, ord := .less, rb := true, sb := true, inc := false } ∧
    roundSOR 9 11 0 false 3 .floor = .ok { z := .fin false 3 3 5, ord := .less, rb := true, sb := false, inc := false } ∧
    (Flt.fin false 3 2 2).toRat = some (signed false (scaled 2 (3 - 2 + 1))) ∧
    (Flt.fin false 3 3 5).toRat = some (signed false (scaled 5 (3 - 3 + 1))) :=
  ⟨by decide, by decide, by decide, by decide, by decide, by decide, rfl, rfl⟩

/-- Overflow by the increment alone. -/
theorem witness_OverflowIffExponentExceedsBound :
    roundSOR 3 15 0 false 3 .away = .error .expOverflow ∧
    roundSOR 4 15 0 false 3 .away = .ok { z := .fin false 4 3 4, ord := .greater, rb := true, sb := false, inc := true } := by
  decide

/-- A sum that moves up by 2, in a mixed precision, and a fixed one that moves up by 1. -/
theorem witness_ResultExponentRange :
    (Magnitude.mk 0 2 3).Legal ∧ 1 ≤ 1 ∧ 1 ≤ 2 ∧ (0 : Int) ≤ 0 ∧
    roundSOR 9 (exactSum ⟨0, 2, 3⟩ ⟨0, 2, 3⟩).n (exactSum ⟨0, 2, 3⟩ ⟨0, 2, 3⟩).q false 2 .nearest =
      .ok { z := .fin false 1 2 3, ord := .equal, rb := false, sb := false, inc := false } ∧
    roundSOR 9 3 (Magnitude.mk 0 2 3).ulp false 1 .away =
      .ok { z := .fin false 1 1 1, ord := .greater, rb := true, sb := false, inc := true } := by decide

theorem witness_SingleOperandIsIdempotent : (Flt.fin true 5 3 5).Legal tc8 ∧ 3 ≤ 3 ∧ 3 ≤ 32 := by decide

/-- The precisions on both sides of every edge, for `W = 8`, and an unequal precision. -/
theorem witness_RegimeConditions :
    0 < 8 ∧ regime 8 8 9 9 = .general ∧
    [7, 8, 9, 15, 16, 17, 23, 24].map (fun p => regime 8 p p p) =
      [.ltW, .eqW, .gtWLt2W, .gtWLt2W, .eq2W, .gt2WLt3W, .gt2WLt3W, .ge3W] := by decide

theorem witness_FixedKernelEqualsRecord :
    0 < 8 ∧ (Magnitude.mk 0 12 0xFFF).Legal ∧ (Magnitude.mk (-3) 12 0x801).Legal ∧
    (Magnitude.mk 0 12 0xFFF).p = 12 ∧ (Magnitude.mk (-3) 12 0x801).p = 12 ∧ (-3 : Int) ≤ 0 := by decide

theorem witness_PaddedKernelEqualsRecord :
    0 < 8 ∧ (Magnitude.mk 0 8 0x80).Legal ∧ (Magnitude.mk (-8) 8 0xC0).Legal ∧
    (Magnitude.mk 0 8 0x80).p = 8 ∧ (Magnitude.mk (-8) 8 0xC0).p = 8 ∧ (-8 : Int) ≤ 0 := by decide

theorem witness_GeneralKernelEqualsRecord :
    (Magnitude.mk 0 4 8).Legal ∧ (Magnitude.mk (-20) 1 1).Legal ∧ 1 ≤ 4 ∧ (-20 : Int) ≤ 0 ∧ 4 ≤ 32 ∧ 1 ≤ 32 ∧
    bitlen (compressedSum ⟨0, 2, 3⟩ ⟨-1, 1, 1⟩ 1).n = 3 := by decide

theorem witness_DispatchedKernelEqualsRecord :
    0 < 8 ∧ (Magnitude.mk (-3) 12 0x801).Legal ∧ (Magnitude.mk 0 12 0xFFF).Legal ∧ 1 ≤ 12 := by decide

theorem witness_NanPropagates :
    (dueFor tc8 (.addRound .exact) one .nan).Holds one .nan ∧ (Instr.addRound .exact).PrecisionValid tc8 ∧
    (one = .nan ∨ Flt.nan = .nan) := by decide

/-- Each clause: two infinities, an infinity first, an infinity second. -/
theorem witness_InfinitiesAbsorb :
    (dueFor tc8 (.addPrec 32) (.inf true) (.inf false)).Holds (.inf true) (.inf false) ∧
    (dueFor tc8 (.addPrec 32) (.inf true) (.zero false)).Holds (.inf true) (.zero false) ∧
    (dueFor tc8 (.addPrec 32) one (.inf false)).Holds one (.inf false) ∧ (Instr.addPrec 32).PrecisionValid tc8 ∧
    (Flt.zero false ≠ .nan ∧ ∀ b, Flt.zero false ≠ .inf b) ∧ (one ≠ .nan ∧ ∀ b, one ≠ .inf b) := by decide

theorem witness_ZeroSumSign :
    (dueFor tc8 (.addPrecRound 1 .floor) (.zero true) (.zero false)).Holds (.zero true) (.zero false) ∧
    (Instr.addPrecRound 1 .floor).PrecisionValid tc8 := by decide

theorem witness_ZeroPlusFiniteIsRounded :
    (dueFor tc8 (.addPrec 1) (.zero true) (.fin false 1 2 3)).Holds (.zero true) (.fin false 1 2 3) ∧
    (dueFor tc8 (.addPrec 1) (.fin false 1 2 3) (.zero true)).Holds (.fin false 1 2 3) (.zero true) ∧
    (Instr.addPrec 1).PrecisionValid tc8 := by decide

theorem witness_SameSignSumIsRounded :
    (dueFor tc8 .add (.fin true 0 1 1) (.fin true 1 2 3)).Holds (.fin true 0 1 1) (.fin true 1 2 3) ∧
    Instr.add.PrecisionValid tc8 := by decide

theorem witness_ExactSumIsTheSum : (Magnitude.mk 3 2 3).Legal ∧ (Magnitude.mk (-3) 1 1).Legal := by decide

/-- For each of the four commands. -/
theorem witness_SameSignSumIsDelivered :
    ∀ i ∈ [Instr.addPrecRound 1 .ceil, .addPrec 32, .addRound .away, .add],
      (dueFor tc8 i one (.fin false 2147483645 2 3)).build.Legal ∧
      (dueFor tc8 i one (.fin false 2147483645 2 3)).Holds one (.fin false 2147483645 2 3) ∧ i.PrecisionValid tc8 ∧
      modeOf i ≠ .exact ∧ max 0 2147483645 + 2 ≤ tc8.emax := by
  intro i hi
  simp only [List.mem_cons, List.not_mem_nil, or_false] at hi
  rcases hi with rfl | rfl | rfl | rfl <;> decide

theorem witness_SameSignSumIsDelivered_values :
    one.toRat = some (signed false (scaled 1 (0 - 1 + 1))) ∧
    (Flt.fin false 2147483645 2 3).toRat = some (signed false (scaled 3 (2147483645 - 2 + 1))) := ⟨rfl, rfl⟩

theorem toRat_one : one.toRat = some 1 := congrArg some (by simp [signed, scaled])

theorem toRat_two : two.toRat = some 2 := congrArg some (by simp [signed, scaled])

theorem witness_ExactModeDeliversTheSum :
    (dueFor tc8 (.addPrecRound 2 .exact) one two).build.Legal ∧
    (dueFor tc8 (.addPrecRound 2 .exact) one two).Holds one two ∧ (Instr.addPrecRound 2 .exact).PrecisionValid tc8 ∧
    modeOf (.addPrecRound 2 .exact) = .exact ∧ max 0 1 + 1 ≤ tc8.emax ∧ one.toRat = some 1 ∧ two.toRat = some 2 ∧
    Representable (targetOf (.addPrecRound 2 .exact) one two) |1 + 2| :=
  ⟨by decide, by decide, by decide, by decide, by decide, toRat_one, toRat_two,
    ⟨3, 0, by decide, by decide, by norm_num [scaled]⟩⟩

/-- V1 in TC8, whose result is greater than the sum. -/
theorem witness_OrderFieldIsSignOfError :
    let i : Instr := .addPrec 1
    let s := dueFor tc8 i one two
    let u := s.respond (addPrecOf tc8 1 s.req.x s.req.y)
    s.build.Legal ∧ s.Holds one two ∧ exec i s = .next u ∧ statusOf u.rsp.word = 0 ∧
    decodeBundle u.build u.rsp.z = some (.fin false 2 1 1) ∧ one.toRat = some 1 ∧ two.toRat = some 2 ∧
    (Flt.fin false 2 1 1).toRat = some (signed false (scaled 1 (2 - 1 + 1))) :=
  ⟨by decide, by decide, rfl, by decide, by decide, toRat_one, toRat_two, rfl⟩

theorem witness_OppositeSignsRequireSubtraction :
    (dueFor tc8 .add (.fin true 0 1 1) (.fin (!true) 0 1 1)).Holds (.fin true 0 1 1) (.fin (!true) 0 1 1) ∧
    Instr.add.PrecisionValid tc8 := by decide

/-- Both ends of the range; and a valid command that completes. -/
theorem witness_InvalidPrecisionIsReported :
    0 < 1 ∧ tc8.nwMax * tc8.w < 33 ∧ (Instr.addPrec 32).PrecisionValid (dueFor tc8 (.addPrec 32) one two).build ∧
    ∃ u, exec (.addPrec 32) (dueFor tc8 (.addPrec 32) one two) = .next u :=
  ⟨by decide, by decide, by decide, _, rfl⟩

theorem witness_InvalidOperandIsReported :
    Instr.add.PrecisionValid tc8 ∧ decodeBundle tc8 (due tc8 3 (encodeBundle tc8 .nan) 5).req.y = none := by decide

/-- 3 is no number of precision 1. -/
theorem three_not_representable : ¬ Representable 1 3 := by
  rintro ⟨m, k, h1, h2, h3⟩
  have hm : m = 1 := by omega
  subst hm
  rw [scaled, Nat.cast_one, one_mul] at h3
  rcases le_or_gt k 1 with hk | hk
  · have h4 : (2 : ℚ) ^ k ≤ 2 ^ (1 : Int) := zpow_le_zpow_right₀ (by norm_num) hk
    norm_num at h4
    linarith
  · have h4 : (2 : ℚ) ^ (2 : Int) ≤ 2 ^ k := zpow_le_zpow_right₀ (by norm_num) (by omega)
    norm_num at h4
    linarith

/-- Each clause without a rounding: an illegal word, a precision out of range, an invalid operand, a special value,
opposite signs. -/
theorem witness_FaultPriority :
    tc8.Legal ∧ illegal 0x00000004#32 = true ∧
    (decode 0x00000001#32 = .ok (.addPrec 0) ∧ ¬ (Instr.addPrec 0).PrecisionValid tc8) ∧
    (decode 0x00000003#32 = .ok .add ∧ Instr.add.PrecisionValid tc8) ∧ decodeBundle tc8 5 = none ∧
    decodeBundle tc8 0x0400000000000000 = some (.zero true) ∧ decodeBundle tc8 (encodeBundle tc8 one) = some one ∧
    decodeBundle tc8 (encodeBundle tc8 (.fin true 0 1 1)) = some (.fin (!false) 0 1 1) := by decide

/-- The rounded operands: `+0 + 3#2` at precision 1 under EXACT (V56i), and `1 + 1 = 2^(EMAX + 1)` where
`EMAX = 0`. -/
theorem witness_FaultPriority_rounding :
    (decode 0x00000150#32 = .ok (.addPrecRound 1 .exact) ∧
      exactValueOf (.zero false) (.fin false 1 2 3) = some (false, ⟨3, 0⟩) ∧ modeOf (.addPrecRound 1 .exact) = .exact ∧
      ¬ Representable (targetOf (.addPrecRound 1 .exact) (.zero false) (.fin false 1 2 3)) (scaled 3 0)) ∧
    (tight.Legal ∧ decodeBundle tight (encodeBundle tight one) = some one ∧ modeOf .add ≠ .exact ∧
      exactValueOf one one = some (false, ⟨2, 0⟩) ∧ (2 : ℚ) ^ (tight.emax + 1) ≤ scaled 2 0) := by
  refine ⟨⟨by decide, by decide, by decide, ?_⟩, by decide, by decide, by decide, by decide, ?_⟩
  · have : scaled 3 0 = 3 := by norm_num [scaled]
    rw [this]
    exact three_not_representable
  · norm_num [scaled, tight]

/-- V54c: the sum is below `2^(EMAX + 1)`, and the rounding carry alone puts the exponent above `EMAX`. -/
theorem witness_FaultPriority_carry :
    exactValueOf (.fin false 2147483647 2 3) (.fin false 2147483645 1 1) = some (false, ⟨7, 2147483645⟩) ∧
    modeOf (.addRound .away) ≠ .exact ∧
    targetOf (.addRound .away) (.fin false 2147483647 2 3) (.fin false 2147483645 1 1) = 2 ∧
    roundSOR 2147483648 7 2147483645 false 2 .away =
      .ok { z := .fin false 2147483648 2 2, ord := .greater, rb := true, sb := false, inc := true } ∧
    tc8.emax < 2147483648 := by decide

theorem witness_CommandsAgreeWithCanonical :
    (dueFor tc8 (.addRound .floor) one .nan).build.Legal ∧ (dueFor tc8 (.addRound .floor) one .nan).Holds one .nan := by
  decide

theorem witness_CompletingEdgeIsExecute : (due tc8 0x00000150#32 1 2).Completes := by decide

theorem witness_StepRunsDecodedCommand :
    (due tc8 0x00000150#32 1 2).Completes ∧ decode (due tc8 0x00000150#32 1 2).req.cmd = .ok (.addPrecRound 1 .exact) := by
  decide

theorem witness_ResetEdge :
    (presenting [quiet]).pinsNow.rst = false ∧ (presenting [resetting]).pinsNow.rst = true ∧
    (presenting [resetting]).build.Legal := by decide

/-- With a request, and without one. -/
theorem witness_AcceptingEdge :
    ∀ p ∈ [offer 3 0 0, quiet], (idleWith tc8 [p]).build.Legal ∧ (idleWith tc8 [p]).st = .idle ∧
      (idleWith tc8 [p]).pinsNow.rst = false ∧ ((idleWith tc8 [p]).pinsNow.reqValid = true ↔ p ≠ quiet) := by decide

/-- With the response taken, and not. -/
theorem witness_TakingEdge :
    ∀ p ∈ [ready, quiet], (presenting [p]).build.Legal ∧ (presenting [p]).st = .done ∧
      (presenting [p]).pinsNow.rst = false ∧ ((presenting [p]).pinsNow.rspReady = true ↔ p ≠ quiet) := by decide

theorem witness_ResponseIsStableUntilTaken :
    let s := presenting [quiet, offer 3 0 0, ready]
    s.build.Legal ∧ s.st = .done ∧
    (∀ k < 1, (s.pinsAt k).rst = false ∧ (s.pinsAt k).rspReady = false) ∧ (s.pinsAt 1).rst = false := by decide

theorem witness_ResetDiscardsTheOperation :
    let s := { due tc8 3 0 0 with host := [resetting, ready, resetting] }
    s.build.Legal ∧ (s.pinsAt 0).rst = true ∧
    (∀ k ≤ 2, 1 ≤ k → (s.pinsAt k).rst = true ∨ (s.pinsAt k).reqValid = false) := by decide

theorem witness_OneOperationAtATime :
    let s := due tc8 3 0 0
    s.build.Legal ∧ s.st ≠ .idle ∧
    ∀ k < 1, ∀ u : State, core.run k s = .next u → u.pinsNow.rst = false ∧ ¬(u.st = .done ∧ u.pinsNow.rspReady = true) := by
  refine ⟨by decide, by decide, ?_⟩
  intro k hk u hu
  obtain rfl : k = 0 := by omega
  injection hu with hu
  subst hu
  decide

theorem witness_RequestIsAnsweredInTime :
    let s := idleWith tc8 [offer 3 0 0, ready, ready, ready]
    s.build.Legal ∧ s.st = .idle ∧ (s.pinsAt 0).reqValid = true ∧
    ∀ k ≤ s.build.latMax + 1, (s.pinsAt k).rst = false ∧ (s.pinsAt k).rspReady = true := by decide

theorem witness_ResponseDependsOnRequestAlone :
    let s := due tc8 3 1 2
    let u := { due tc8 3 1 2 with lat := 2, host := [quiet, offer 1 5 6], rsp := ⟨9, 9⟩ }
    s.build.Legal ∧ s.build = u.build ∧ s.req = u.req ∧ s.st = .busy ∧ u.st = .busy ∧ 1 ≤ s.lat ∧ 1 ≤ u.lat ∧
    (∀ k < s.lat, (s.pinsAt k).rst = false) ∧ ∀ k < u.lat, (u.pinsAt k).rst = false := by decide

theorem witness_StepKeepsInvariant : (due tc8 3 1 2).Inv ∧ ∃ t, step (due tc8 3 1 2) = .next t :=
  ⟨by decide, _, rfl⟩

theorem witness_LegalBuildNeverStops : (idleWith tc8 []).build.Legal ∧ ¬ (idleWith { tc8 with w := 12 } []).build.Legal := by
  decide

theorem witness_FiniteLiteralDenotesItsValue : finiteLiteral true ⟨3, -1⟩ 2 = some (.fin true 0 2 3) := by decide

/-- A line whose response is OK, one whose response is not, one that reads an unset variable, and a script of two
lines that finishes. -/
theorem witness_ScriptStopsAtFirstFault :
    let l : ScriptLine := ⟨['a'], .add, .literal one, .literal two⟩
    let u : ScriptLine := ⟨['a'], .add, .variable ['b'], .literal two⟩
    (operandValue [] l.x = some one ∧ operandValue [] l.y = some two ∧ tc8.Legal ∧
      statusOf (respondTo tc8 ⟨encode l.command, encodeBundle tc8 one, encodeBundle tc8 two⟩).word = 0) ∧
    statusOf (respondTo tc8 ⟨encode .add, encodeBundle tc8 one, encodeBundle tc8 (.fin true 0 1 1)⟩).word ≠ 0 ∧
    operandValue [] u.x = none ∧
    (runScript tc8 [l, l] []).ended = .finished ∧ 0 + 1 < (runScript tc8 [l, l] []).responses.length := by decide

end Sys2Proof.Tests
end

section
/-! SUPPORT. The layout of an encoded bundle: its header as a concatenation of fields (rule R310), and the words of a
left-aligned significand (rule R112). -/

namespace Sys2Proof

/-! ## The header -/

/-- A concatenation of bit strings, read as a number. -/
theorem toNat_append_add {k n : Nat} (x : BitVec k) (y : BitVec n) :
    (x ++ y).toNat = x.toNat * 2 ^ n + y.toNat := by
  rw [BitVec.toNat_append, ← Nat.shiftLeft_add_eq_or_of_lt y.isLt, Nat.shiftLeft_eq]

/-- `{0, SGN, CLS, PREC, EXP}` of rule R310. -/
theorem ofNat_packHeader (s : Bool) (c p e : Nat) (hc : c < 4) (hp : p < 2 ^ 24) (he : e < 2 ^ 32) :
    BitVec.ofNat 64 (packHeader s c p e) =
      0#5 ++ BitVec.ofBool s ++ BitVec.ofNat 2 c ++ BitVec.ofNat 24 p ++ BitVec.ofNat 32 e := by
  have hlt := packHeader_lt s c p e hc hp he
  have hcls : (BitVec.ofNat 2 c).toNat = c := Nat.mod_eq_of_lt hc
  have hprec : (BitVec.ofNat 24 p).toNat = p := Nat.mod_eq_of_lt hp
  have hexp : (BitVec.ofNat 32 e).toNat = e := Nat.mod_eq_of_lt he
  apply BitVec.eq_of_toNat_eq
  rw [BitVec.toNat_ofNat, Nat.mod_eq_of_lt (by omega), toNat_append_add, toNat_append_add, toNat_append_add,
    toNat_append_add, BitVec.toNat_zero, BitVec.toNat_ofBool, hcls, hprec, hexp, packHeader]
  ring

/-- The bundle of a special value is its header, whose reserved bits are zero, and nothing else. -/
theorem special_bundle_layout (s : Bool) (c : Nat) (hc : c < 4) :
    BitVec.ofNat 64 (packHeader s c 0 0) = 0#5 ++ BitVec.ofBool s ++ BitVec.ofNat 2 c ++ 0#24 ++ 0#32 ∧
      packHeader s c 0 0 < 2 ^ 64 := by
  have hlt := packHeader_lt s c 0 0 hc (by norm_num) (by norm_num)
  exact ⟨ofNat_packHeader s c 0 0 hc (by norm_num) (by norm_num), by omega⟩

theorem finite_header_lt (s : Bool) (e : Int) (p : Nat) :
    packHeader s 1 (p % 2 ^ 24) (e % 2 ^ 32).toNat < 2 ^ 64 := by
  have := packHeader_lt s 1 (p % 2 ^ 24) (e % 2 ^ 32).toNat (by norm_num) (by omega) (by omega)
  omega

/-- The header of a Finite bundle: class 01, the precision and the two's complement exponent. -/
theorem encodeBundle_fin_header (b : Build) (s : Bool) (e : Int) (p m : Nat) :
    BitVec.ofNat 64 (encodeBundle b (.fin s e p m)) =
      0#5 ++ BitVec.ofBool s ++ 0b01#2 ++ BitVec.ofNat 24 p ++ BitVec.ofInt 32 e := by
  have hprec : BitVec.ofNat 24 (p % 2 ^ 24) = BitVec.ofNat 24 p := BitVec.eq_of_toNat_eq (by simp)
  have hexp : BitVec.ofNat 32 (e % 2 ^ 32).toNat = BitVec.ofInt 32 e := by
    apply BitVec.eq_of_toNat_eq
    rw [BitVec.toNat_ofNat, BitVec.toNat_ofInt]
    omega
  have hlow : BitVec.ofNat 64 (encodeBundle b (.fin s e p m)) =
      BitVec.ofNat 64 (packHeader s 1 (p % 2 ^ 24) (e % 2 ^ 32).toNat) := by
    apply BitVec.eq_of_toNat_eq
    rw [BitVec.toNat_ofNat, BitVec.toNat_ofNat, encodeBundle, packBundle_header _ _ _ (finite_header_lt s e p),
      Nat.mod_eq_of_lt (finite_header_lt s e p)]
  rw [hlow, ofNat_packHeader s 1 _ _ (by norm_num) (by omega) (by omega), hprec, hexp]

/-! ## The words of a left-aligned significand -/

/-- The number that the words `0` to `n - 1` of `v` denote. -/
theorem sum_words_eq_mod (w n v : Nat) :
    ∑ i ∈ Finset.range n, v / 2 ^ (w * i) % 2 ^ w * 2 ^ (w * i) = v % 2 ^ (w * n) := by
  induction n with
  | zero => simp [Nat.mod_one]
  | succ n ih => rw [Finset.sum_range_succ, ih, Nat.mul_succ, Nat.pow_add, Nat.mod_mul, Nat.mul_comm (2 ^ (w * n))]

/-- `M << pad` fills at most `n = ceil(p/W)` words. -/
theorem leftAligned_lt {w p m : Nat} (hw : 0 < w) (hm : m < 2 ^ p) :
    m * 2 ^ padBits w p < 2 ^ (w * wordsFor w p) := by
  rw [Nat.mul_comm w, wordsFor_mul w p hw, Nat.pow_add]
  exact Nat.mul_lt_mul_of_pos_right hm (Nat.two_pow_pos _)

/-- The most significant bit of `M` is bit `W - 1` of word `n - 1` (rule R112). -/
theorem leftAligned_top_bit {w p m : Nat} (hw : 0 < w) (hp : 1 ≤ p) (h1 : 2 ^ (p - 1) ≤ m) (h2 : m < 2 ^ p) :
    (m * 2 ^ padBits w p / 2 ^ (w * (wordsFor w p - 1)) % 2 ^ w).testBit (w - 1) = true := by
  have hpos : w - 1 + w * (wordsFor w p - 1) = padBits w p + (p - 1) := by
    have hmul := wordsFor_mul w p hw
    obtain ⟨k, hk⟩ : ∃ k, wordsFor w p = k + 1 := ⟨_, (Nat.sub_add_cancel (wordsFor_pos w p hw hp)).symm⟩
    rw [hk, Nat.succ_mul, Nat.mul_comm] at hmul
    rw [hk, Nat.add_sub_cancel]
    omega
  have htop : m.testBit (p - 1) = true :=
    Nat.testBit_of_two_pow_le_and_two_pow_add_one_gt h1 (by rwa [Nat.sub_add_cancel hp])
  rw [Nat.testBit_mod_two_pow, Nat.testBit_div_two_pow, Nat.testBit_mul_two_pow, hpos, Nat.add_sub_cancel_left, htop]
  simp [hw]

/-- The padding is at the bottom of word 0. -/
theorem leftAligned_padding_zero {w p m : Nat} (hw : 0 < w) :
    m * 2 ^ padBits w p % 2 ^ w % 2 ^ padBits w p = 0 := by
  rw [Nat.mod_mod_of_dvd _ (Nat.pow_dvd_pow 2 (padBits_lt w p hw).le), Nat.mul_mod_left]

/-- No bit of `M << pad` reaches the words from `n` on. -/
theorem leftAligned_word_above {w p m i : Nat} (hw : 0 < w) (hm : m < 2 ^ p) (hi : wordsFor w p ≤ i) :
    m * 2 ^ padBits w p / 2 ^ (w * i) % 2 ^ w = 0 := by
  have hle : 2 ^ (w * wordsFor w p) ≤ 2 ^ (w * i) :=
    Nat.pow_le_pow_right (by norm_num) (Nat.mul_le_mul_left w hi)
  rw [Nat.div_eq_of_lt ((leftAligned_lt hw hm).trans_le hle), Nat.zero_mod]

/-- Above the header, the bundle of a significand that fits holds `M << pad`. -/
theorem encodeBundle_fin_words {b : Build} {p m : Nat} (s : Bool) (e : Int) (hw : 0 < b.w) (hp : p ≤ b.pMax)
    (hm : m < 2 ^ p) : encodeBundle b (.fin s e p m) / 2 ^ 64 = m * 2 ^ padBits b.w p := by
  have hle : 2 ^ (b.w * wordsFor b.w p) ≤ 2 ^ (b.w * b.nwMax) :=
    Nat.pow_le_pow_right (by norm_num) (Nat.mul_le_mul_left _ (wordsFor_le _ _ _ hw hp))
  rw [encodeBundle, packBundle_words _ _ _ (finite_header_lt s e p), wordsValue_toWords,
    Nat.mod_eq_of_lt ((leftAligned_lt hw hm).trans_le hle)]

/-- `S[i]` of the bundle of a significand that fits is word `i` of `M << pad`. -/
theorem encodeBundle_fin_word {b : Build} {p m : Nat} (s : Bool) (e : Int) (hw : 0 < b.w) (hp : p ≤ b.pMax)
    (hm : m < 2 ^ p) (i : Nat) :
    encodeBundle b (.fin s e p m) / 2 ^ (64 + b.w * i) % 2 ^ b.w =
      m * 2 ^ padBits b.w p / 2 ^ (b.w * i) % 2 ^ b.w := by
  rw [Nat.pow_add, ← Nat.div_div_eq_div_mul, encodeBundle_fin_words s e hw hp hm]

theorem Build.Legal.w_pos {b : Build} (hb : b.Legal) : 0 < b.w := by
  obtain ⟨hw, -⟩ := hb
  omega

/-- Settles O8. A special value is a header alone. The words of a Finite value are those of `M << pad`, so each clause
about them is one about that number. -/
theorem significandIsLeftAligned : Obligations.SignificandIsLeftAligned := by
  intro b z hb hz B S
  refine ⟨encodeBundle_lt b z, ?_⟩
  cases z with
  | nan => exact special_bundle_layout false 3 (by norm_num)
  | inf s => exact special_bundle_layout s 2 (by norm_num)
  | zero s => exact special_bundle_layout s 0 (by norm_num)
  | fin s e p m =>
    obtain ⟨hp1, hp, -, -, hm1, hm2⟩ := hz
    have hw := hb.w_pos
    have hS : ∀ i, S i = m * 2 ^ padBits b.w p / 2 ^ (b.w * i) % 2 ^ b.w :=
      encodeBundle_fin_word s e hw hp hm2
    have hsig : ∑ i ∈ Finset.range (wordsFor b.w p), S i * 2 ^ (b.w * i) = m * 2 ^ padBits b.w p := by
      simp only [hS, sum_words_eq_mod]
      exact Nat.mod_eq_of_lt (leftAligned_lt hw hm2)
    refine ⟨encodeBundle_fin_header b s e p m,
      (Nat.le_add_right p _).trans_eq (wordsFor_mul b.w p hw).symm, padBits_lt b.w p hw, wordsFor_le _ _ _ hw hp,
      (Nat.div_eq_of_eq_mul_left (Nat.two_pow_pos _) hsig).symm, Nat.mod_eq_zero_of_dvd (Dvd.intro_left m hsig.symm),
      ?_, ?_, fun i hi _ => ?_⟩
    · rw [hS]
      exact leftAligned_top_bit hw hp1 hm1 hm2
    · rw [hS, Nat.mul_zero, Nat.pow_zero, Nat.div_one]
      exact leftAligned_padding_zero hw
    · rw [hS]
      exact leftAligned_word_above hw hm2 hi

end Sys2Proof
end

section
/-! SUPPORT. What the completing edge answers, as a function of the latched request and the build (rules R207, R705),
and runs along which an operation is held (rules R107, R210). -/

namespace Sys2Proof.Machine

/-! ## The response of the latched request -/

/-- A word that decodes is legal: the converse of `decode_error_illegal`. -/
theorem illegal_of_decode_ok {c : Word32} {i : Instr} (h : decode c = .ok i) : illegal c = false := by
  obtain ⟨hres, m, hm, hcase⟩ := decode_ok_cases h
  have hrm : rmOf c < 6 := by
    have := modeCode_le m
    omega
  rcases hcase with ⟨ho, -⟩ | ⟨ho, hr, -⟩ | ⟨ho, ht, -⟩ | ⟨ho, hr, ht, -⟩ <;> simp [illegal, bitAt, *]

/-- On a word that decodes, `Execute` computes what the decoded command computes (rules R500, R510 to R513). -/
theorem execute_of_decode_ok {s : State} {i : Instr} (h : decode s.req.cmd = .ok i) :
    execute s.build s.req.cmd s.req.x s.req.y = answerOf i s := by
  have hlegal := illegal_of_decode_ok h
  obtain ⟨-, m, hm, hcase⟩ := decode_ok_cases h
  have hmode : modeOfCode (rmOf s.req.cmd) = some m := by rw [← hm, modeOfCode_modeCode]
  rcases hcase with ⟨ho, rfl⟩ | ⟨ho, -, rfl⟩ | ⟨ho, -, rfl⟩ | ⟨ho, -, -, rfl⟩
  · simp [execute, hlegal, select, ho, hmode, bitAt, answerOf, addPrecRoundOf, withPrecision]
  · simp [execute, hlegal, select, ho, bitAt, answerOf, addPrecOf, withPrecision]
  · simp [execute, hlegal, select, ho, hmode, bitAt, answerOf, addRoundOf]
  · simp [execute, hlegal, select, ho, bitAt, answerOf, addOf]

/-- On a word that does not decode, `Execute` fails with ILLEGAL_COMMAND (rules R304, R500). -/
theorem execute_of_decode_error {b : Build} {c : Word32} {e : IllegalCause} (X Y : Nat) (h : decode c = .error e) :
    execute b c X Y = .error .illegalCommand := if_pos (decode_error_illegal h)

/-- The completing edge answers `Respond(REQ)` (rule R705). -/
theorem step_complete_respondTo {s : State} (hb : s.build.Legal) (hr : s.pinsNow.rst = false) (hs : s.st = .busy)
    (hl : s.lat ≤ 1) : step s = .next (s.complete (respondTo s.build s.req)).tick := by
  rw [step_complete hb hr hs hl, respondTo]
  cases h : decode s.req.cmd with
  | ok i => rw [execute_of_decode_ok h]; rfl
  | error e => rw [execute_of_decode_error _ _ h]; rfl

/-! ## Runs that hold an operation -/

/-- Without reset, an operation in BUSY reaches DONE after exactly `lat` edges, with the response of the latched
request, whatever the schedule, the time and the earlier response. -/
theorem run_lat_of_busy {s : State} (hb : s.build.Legal) (hs : s.st = .busy) (hl : 1 ≤ s.lat)
    (hrst : ∀ k < s.lat, (s.pinsAt k).rst = false) :
    ∃ t, core.run s.lat s = .next t ∧ t.st = .done ∧ t.rsp = respondTo s.build s.req := by
  obtain ⟨n, hn⟩ : ∃ n, s.lat = n + 1 := Nat.exists_eq_add_of_le' hl
  clear hl
  rw [hn] at hrst ⊢
  induction n generalizing s with
  | zero =>
    have hr : s.pinsNow.rst = false := pinsNow_eq_pinsAt s ▸ hrst 0 Nat.one_pos
    exact ⟨_, run_succ_of_step 0 (step_complete_respondTo hb hr hs hn.le), rfl, rfl⟩
  | succ n ih =>
    have hr : s.pinsNow.rst = false := pinsNow_eq_pinsAt s ▸ hrst 0 (Nat.succ_pos _)
    rw [run_succ_of_step (n + 1) (step_countDown hb hr hs (by omega))]
    refine ih (s := s.countDown.tick) hb hs (fun k hk => ?_) (by simp [hn])
    simpa using hrst (k + 1) (by omega)

/-- An edge that neither resets the machine nor takes its response keeps the operation it holds. -/
theorem step_keeps_operation {s : State} (hb : s.build.Legal) (hs : s.st ≠ .idle) (hr : s.pinsNow.rst = false)
    (htake : ¬(s.st = .done ∧ s.pinsNow.rspReady = true)) :
    ∃ t, step s = .next t ∧ t.build = s.build ∧ t.st ≠ .idle ∧ t.req = s.req := by
  cases h : s.st with
  | idle => exact absurd h hs
  | busy =>
    by_cases hl : s.lat ≤ 1
    · exact ⟨_, step_complete hb hr h hl, by simp⟩
    · exact ⟨_, step_countDown hb hr h (by omega), by simp [h]⟩
  | done =>
    have hready : s.pinsNow.rspReady = false := by simpa [h] using htake
    exact ⟨_, step_hold hb hr h hready, by simp [h]⟩

/-! ## The statements -/

/-- Settles O53, by induction on the number of edges: each keeps the operation (`step_keeps_operation`), and outside
IDLE `req_ready` is 0. -/
theorem oneOperationAtATime : Obligations.OneOperationAtATime := by
  intro n
  induction n with
  | zero =>
    intro s _ hs _
    exact ⟨s, rfl, hs, rfl, by simp [reqReady_eq, hs]⟩
  | succ n ih =>
    intro s hb hs hquiet
    obtain ⟨hr, htake⟩ := hquiet 0 n.succ_pos s rfl
    obtain ⟨t, hstep, htb, hts, htreq⟩ := step_keeps_operation hb hs hr htake
    have hquiet' : ∀ k < n, ∀ u : State, core.run k t = .next u →
        u.pinsNow.rst = false ∧ ¬(u.st = .done ∧ u.pinsNow.rspReady = true) := fun k hk u hu =>
      hquiet (k + 1) (by omega) u ((run_succ_of_step k hstep).trans hu)
    rw [run_succ_of_step n hstep, ← htreq]
    exact ih t (htb ▸ hb) hts hquiet'

/-- Settles O55: each run ends in DONE with `Respond(REQ)` for the common build and request (`run_lat_of_busy`). -/
theorem responseDependsOnRequestAlone : Obligations.ResponseDependsOnRequestAlone := by
  intro s u hb hbuild hreq hs hu hsl hul hsr hur
  obtain ⟨t, hrun, htdone, htrsp⟩ := run_lat_of_busy hb hs hsl hsr
  obtain ⟨v, hrun', hvdone, hvrsp⟩ := run_lat_of_busy (hbuild ▸ hb) hu hul hur
  exact ⟨t, v, hrun, hrun', htdone, hvdone, by rw [htrsp, hvrsp, hbuild, hreq]⟩

end Sys2Proof.Machine
end

section
/-! SUPPORT. Command words: their fields as bits of the word, the decoder and the encoder as inverses, and what an
illegal word is answered with (30_encoding.md section 1). -/

namespace Sys2Proof

/-! ## Fields as bits -/

theorem bitAt_eq_testBit (v i : Nat) : bitAt v i = v.testBit i := by
  rw [Nat.testBit_eq_decide_div_mod_eq]
  rfl

theorem getLsbD_eq_bitAt (c : Word32) (i : Nat) : c.getLsbD i = bitAt c.toNat i := by
  rw [bitAt_eq_testBit, BitVec.testBit_toNat]

/-- `v[hi:lo]` of rule R10 is an extraction of bits. -/
theorem toNat_extractLsb'_eq_field (c : Word32) (lo n : Nat) (hn : 1 ≤ n) :
    (c.extractLsb' lo n).toNat = field c.toNat (lo + n - 1) lo := by
  have hwidth : lo + n - 1 + 1 - lo = n := by omega
  rw [BitVec.extractLsb'_toNat, Nat.shiftRight_eq_div_pow, field, hwidth]

theorem extractLsb'_eq_ofNat_iff (c : Word32) {lo n k : Nat} (hn : 1 ≤ n) (hk : k < 2 ^ n) :
    c.extractLsb' lo n = BitVec.ofNat n k ↔ field c.toNat (lo + n - 1) lo = k := by
  rw [← toNat_extractLsb'_eq_field c lo n hn, ← BitVec.toNat_inj, BitVec.toNat_ofNat, Nat.mod_eq_of_lt hk]

/-- The opcode bits that say which fields are unused (rule R302) are bits of the word. -/
theorem bitAt_opcOf (c : Word32) {i : Nat} (hi : i < 4) : bitAt (opcOf c) i = c.getLsbD i := by
  rw [getLsbD_eq_bitAt, bitAt_eq_testBit, bitAt_eq_testBit, opcOf, field, Nat.pow_zero, Nat.div_one,
    Nat.testBit_mod_two_pow, decide_eq_true hi, Bool.true_and]

theorem reservedOf_ne_zero_iff (c : Word32) : reservedOf c ≠ 0 ↔ c.getLsbD 7 = true := by
  rw [getLsbD_eq_bitAt, bitAt_iff, reservedOf, field]
  omega

/-- `illegal(CMD)` of rule R304, read from the bits of the word. -/
theorem illegal_iff_bits (c : Word32) : illegal c = true ↔
    (4 ≤ (c.extractLsb' 0 4).toNat ∨ c.getLsbD 7 = true ∨ 6 ≤ (c.extractLsb' 4 3).toNat ∨
      (c.getLsbD 0 = true ∧ c.extractLsb' 4 3 ≠ 0#3) ∨ (c.getLsbD 1 = true ∧ c.extractLsb' 8 24 ≠ 0#24)) := by
  have hopc : (c.extractLsb' 0 4).toNat = opcOf c := toNat_extractLsb'_eq_field c 0 4 (by omega)
  have hrm : (c.extractLsb' 4 3).toNat = rmOf c := toNat_extractLsb'_eq_field c 4 3 (by omega)
  have hrm0 : c.extractLsb' 4 3 = 0#3 ↔ rmOf c = 0 := extractLsb'_eq_ofNat_iff c (by omega) (by omega)
  have htp0 : c.extractLsb' 8 24 = 0#24 ↔ tprecOf c = 0 := extractLsb'_eq_ofNat_iff c (by omega) (by omega)
  rw [hopc, hrm, ne_eq, ne_eq, hrm0, htp0, ← reservedOf_ne_zero_iff, ← bitAt_opcOf c (by omega : 0 < 4),
    ← bitAt_opcOf c (by omega : 1 < 4)]
  simp only [illegal, Bool.or_eq_true, Bool.and_eq_true, decide_eq_true_eq, or_assoc, ne_eq]

/-- The decoder rejects exactly the illegal words of rule R304. -/
theorem exists_decode_error_iff_illegal (c : Word32) : (∃ e, decode c = .error e) ↔ illegal c = true := by
  refine ⟨fun ⟨_, h⟩ => decode_error_illegal h, fun hill => ?_⟩
  cases h : decode c with
  | error e => exact ⟨e, rfl⟩
  | ok i => rw [Machine.illegal_of_decode_ok h] at hill; cases hill

/-! ## The encoder -/

/-- `{TPREC[23:0], 0, RM[2:0], OPC[3:0]}` of rule R300. -/
theorem commandWord_eq_append {p m o : Nat} (hp : p < 2 ^ 24) (hm : m < 8) (ho : o < 16) :
    commandWord p m o = BitVec.ofNat 24 p ++ 0#1 ++ BitVec.ofNat 3 m ++ BitVec.ofNat 4 o := by
  have hprec : (BitVec.ofNat 24 p).toNat = p := Nat.mod_eq_of_lt hp
  have hmode : (BitVec.ofNat 3 m).toNat = m := Nat.mod_eq_of_lt hm
  have hopc : (BitVec.ofNat 4 o).toNat = o := Nat.mod_eq_of_lt ho
  apply BitVec.eq_of_toNat_eq
  rw [commandWord_toNat p m o hp hm ho, toNat_append_add, toNat_append_add, toNat_append_add, hprec, hmode, hopc,
    BitVec.toNat_zero]
  ring

/-- A word whose reserved bit is 0 is the command word of its own fields. -/
theorem commandWord_of_fields {c : Word32} (h : reservedOf c = 0) :
    commandWord (tprecOf c) (rmOf c) (opcOf c) = c := by
  apply BitVec.eq_of_toNat_eq
  rw [commandWord_toNat _ _ _ (tprecOf_lt c) (rmOf_lt c) (opcOf_lt c), word_toNat_eq c, h]
  omega

/-- The converse of `decode_ok_cases`: a word with the fields of a command, and the fields it does not use zero, decodes
to it. -/
theorem decode_eq_ok_of_fields {c : Word32} {i : Instr} {m : RoundMode} (hres : reservedOf c = 0)
    (hm : modeCode m = rmOf c)
    (hcase : (opcOf c = 0 ∧ i = .addPrecRound (tprecOf c) m) ∨
      (opcOf c = 1 ∧ rmOf c = 0 ∧ i = .addPrec (tprecOf c)) ∨
      (opcOf c = 2 ∧ tprecOf c = 0 ∧ i = .addRound m) ∨
      (opcOf c = 3 ∧ rmOf c = 0 ∧ tprecOf c = 0 ∧ i = .add)) :
    decode c = .ok i := by
  have hmode : modeOfCode (rmOf c) = some m := hm ▸ modeOfCode_modeCode m
  rcases hcase with ⟨ho, rfl⟩ | ⟨ho, hr, rfl⟩ | ⟨ho, ht, rfl⟩ | ⟨ho, hr, ht, rfl⟩
  · simp [decode, hres, hmode, ho, bitAt]
  · simp [decode, hres, ho, hr ▸ hmode, hr, bitAt]
  · simp [decode, hres, hmode, ho, ht, bitAt]
  · simp [decode, hres, ho, hr ▸ hmode, hr, ht, bitAt]

/-- The fields of a command word, in the order TPREC, reserved bit, RM, OPC. -/
theorem fields_commandWord {p m o : Nat} (hp : p < 16777216) (hm : m < 8) (ho : o < 16) :
    tprecOf (commandWord p m o) = p ∧ reservedOf (commandWord p m o) = 0 ∧ rmOf (commandWord p m o) = m ∧
      opcOf (commandWord p m o) = o :=
  ⟨tprecOf_commandWord p m o hp hm ho, reservedOf_commandWord p m o hp hm ho, rmOf_commandWord p m o hp hm ho,
    opcOf_commandWord p m o hp hm ho⟩

theorem modeCode_lt_eight (m : RoundMode) : modeCode m < 8 := by
  have := modeCode_le m
  omega

/-! ## The statements -/

/-- Settles O1: the fields of each form's word are those of the command, and the fields it does not use are zero. -/
theorem decodeEncodeEveryCommand : Obligations.DecodeEncodeEveryCommand := by
  intro i hi
  cases i with
  | addPrecRound p m =>
    obtain ⟨hp, hres, hr, ho⟩ := fields_commandWord (o := 0) hi (modeCode_lt_eight m) (by omega)
    exact decode_eq_ok_of_fields hres hr.symm (.inl ⟨ho, congrArg (Instr.addPrecRound · m) hp.symm⟩)
  | addPrec p =>
    obtain ⟨hp, hres, hr, ho⟩ := fields_commandWord (m := 0) (o := 1) hi (by omega) (by omega)
    exact decode_eq_ok_of_fields (m := .nearest) hres hr.symm (.inr (.inl ⟨ho, hr, congrArg Instr.addPrec hp.symm⟩))
  | addRound m =>
    obtain ⟨hp, hres, hr, ho⟩ := fields_commandWord (p := 0) (o := 2) (by omega) (modeCode_lt_eight m) (by omega)
    exact decode_eq_ok_of_fields hres hr.symm (.inr (.inr (.inl ⟨ho, hp, rfl⟩)))
  | add =>
    obtain ⟨hp, hres, hr, ho⟩ := fields_commandWord (p := 0) (m := 0) (o := 3) (by omega) (by omega) (by omega)
    exact decode_eq_ok_of_fields (m := .nearest) hres hr.symm (.inr (.inr (.inr ⟨ho, hr, hp, rfl⟩)))

/-- Settles O2: a decoded word has its reserved bit and its unused fields 0, so it is the command word of its
fields. -/
theorem legalWordIsEncodingOfItsCommand : Obligations.LegalWordIsEncodingOfItsCommand := by
  intro c i h
  obtain ⟨hres, m, hm, hcase⟩ := decode_ok_cases h
  have hword := commandWord_of_fields hres
  have htp := tprecOf_lt c
  rcases hcase with ⟨ho, rfl⟩ | ⟨ho, hr, rfl⟩ | ⟨ho, ht, rfl⟩ | ⟨ho, hr, ht, rfl⟩
  · rw [ho, ← hm] at hword
    exact ⟨htp, hword⟩
  · rw [ho, hr] at hword
    exact ⟨htp, hword⟩
  · rw [ho, ht, ← hm] at hword
    exact ⟨trivial, hword⟩
  · rw [ho, hr, ht] at hword
    exact ⟨trivial, hword⟩

/-- Settles O3: the rejected words are the illegal ones, and `Respond(REQ)` of one is the word of ILLEGAL_COMMAND. -/
theorem illegalWordsAreAnsweredIllegal : Obligations.IllegalWordsAreAnsweredIllegal := by
  refine ⟨fun c => (exists_decode_error_iff_illegal c).trans (illegal_iff_bits c), ?_⟩
  rintro s ⟨hb, hbusy, hlat, hrst⟩ ⟨e, he⟩
  rw [Machine.step_complete_respondTo hb hrst hbusy hlat, Machine.respondTo, Machine.execute_of_decode_error _ _ he,
    Machine.responseOf_error, Machine.faultResponse_eq]
  rfl

/-- Settles O5: each form is the command word of its fields, and a command word is their concatenation. -/
theorem commandWordIsFieldConcatenation : Obligations.CommandWordIsFieldConcatenation := by
  intro p m hp rm
  have hrm : rm = BitVec.ofNat 3 (modeCode m) := by cases m <;> rfl
  have hm := modeCode_lt_eight m
  rw [hrm]
  exact ⟨commandWord_eq_append hp hm (by omega), commandWord_eq_append hp (by omega) (by omega),
    commandWord_eq_append (by omega) hm (by omega), commandWord_eq_append (by omega) (by omega) (by omega)⟩

end Sys2Proof
end

section
/-! SUPPORT. Float bundles: the decoder and the encoder as inverses on the legal Floats of a build (rules R310 to
R313). -/

namespace Sys2Proof

/-! ## Headers (rule R310) -/

theorem field_low (B : Nat) : field B 63 0 = B % 2 ^ 64 := by
  rw [field, Nat.pow_zero, Nat.div_one]

/-- The fields of a header, in the order reserved bits, SGN, CLS, PREC, EXP. -/
theorem fields_packHeader (s : Bool) {c p e : Nat} (hc : c < 4) (hp : p < 2 ^ 24) (he : e < 2 ^ 32) :
    field (packHeader s c p e) 63 59 = 0 ∧ bitAt (packHeader s c p e) 58 = s ∧
      field (packHeader s c p e) 57 56 = c ∧ field (packHeader s c p e) 55 32 = p ∧
      field (packHeader s c p e) 31 0 = e := by
  have hsgn : bitAt (packHeader s c p e) 58 = s := by
    cases s
    · rw [bitAt_eq_false_iff, packHeader, Bool.toNat_false]
      omega
    · rw [bitAt_iff, packHeader, Bool.toNat_true]
      omega
  have hs := Bool.toNat_le s
  refine ⟨?_, hsgn, ?_, ?_, ?_⟩ <;> rw [field, packHeader] <;> omega

/-- A header whose reserved bits are 0 is the header of its own fields. -/
theorem packHeader_of_fields {h : Nat} (hlt : h < 2 ^ 64) (hres : field h 63 59 = 0) :
    packHeader (bitAt h 58) (field h 57 56) (field h 55 32) (field h 31 0) = h := by
  have hsgn : (bitAt h 58).toNat = h / 2 ^ 58 % 2 := by
    cases hb : bitAt h 58
    · exact ((bitAt_eq_false_iff h 58).1 hb).symm
    · exact ((bitAt_iff h 58).1 hb).symm
  rw [field] at hres
  rw [packHeader, hsgn, field, field, field]
  omega

/-- The exponent field of a header is the two's complement of the exponent it is read as. -/
theorem emod_sext {v : Nat} (h : v < 2 ^ 32) : (sext 32 v % 2 ^ 32).toNat = v := by
  unfold sext
  split <;> omega

/-! ## Special values (rule R311) -/

/-- A bundle without words has only zero words. -/
theorem bundleWords_of_lt {b : Build} {B : Nat} (hw : 0 < b.w) (hB : B < 2 ^ 64) :
    ∀ a ∈ bundleWords b B, a = 0 := by
  intro a ha
  obtain ⟨i, -, rfl⟩ := List.mem_map.1 ha
  rw [bundleWord_eq b B i hw, Nat.div_eq_of_lt hB, Nat.zero_div, Nat.zero_mod]

/-- A list of zero words is the number 0. -/
theorem wordsValue_eq_zero (w : Nat) {ws : List Nat} (h : ∀ a ∈ ws, a = 0) : wordsValue w ws = 0 := by
  induction ws with
  | nil => rfl
  | cons a ws ih =>
    rw [wordsValue, h a (by simp), ih (fun x hx => h x (by simp [hx])), Nat.mul_zero]

/-- The header alone of a class other than Finite decodes to the special value of its class. -/
theorem decodeBundle_special {b : Build} (hw : 0 < b.w) (s : Bool) {c : Nat} (hc : c < 4) (h1 : c ≠ 1) :
    decodeBundle b (packHeader s c 0 0) =
      if c = 3 then (if s then none else some .nan) else if c = 0 then some (.zero s) else some (.inf s) := by
  have hlt := packHeader_lt s c 0 0 hc (by norm_num) (by norm_num)
  obtain ⟨hres, hsgn, hcls, hprec, hexp⟩ := fields_packHeader s hc (p := 0) (e := 0) (by norm_num) (by norm_num)
  have hwords : (bundleWords b (packHeader s c 0 0)).any (fun a => a != 0) = false := by
    simpa using bundleWords_of_lt hw (by omega : packHeader s c 0 0 < 2 ^ 64)
  have hhead : field (packHeader s c 0 0) 63 0 = packHeader s c 0 0 := by
    rw [field_low]
    omega
  simp [decodeBundle, hhead, hres, hsgn, hcls, hprec, hexp, hwords, h1]

/-! ## Finite values (rule R312) -/

/-- The converse of `decodeFinite_some`: fields that pass the checks of rule R312 denote a Float. -/
theorem decodeFinite_of_checks {b : Build} {s : Bool} {e : Int} {p : Nat} {ws : List Nat} (hp1 : 1 ≤ p)
    (hp2 : p ≤ b.pMax) (he1 : b.emin ≤ e) (he2 : e ≤ b.emax)
    (htop : bitAt (ws.getD (wordsFor b.w p - 1) 0) (b.w - 1) = true) (hpad : ws.getD 0 0 % 2 ^ padBits b.w p = 0)
    (hrest : ∀ a ∈ ws.drop (wordsFor b.w p), a = 0) :
    decodeFinite b s e p ws =
      some (.fin s e p (wordsValue b.w (ws.take (wordsFor b.w p)) / 2 ^ padBits b.w p)) := by
  have hany : ¬ (ws.drop (wordsFor b.w p)).any (fun a => a != 0) = true := by simpa using hrest
  rw [decodeFinite, if_neg (by omega), if_neg (by omega), if_neg (by rw [htop]; simp), if_neg (by omega), if_neg hany]

theorem toWords_drop (w n k v : Nat) : (toWords w n v).drop k = toWords w (n - k) (v / 2 ^ (w * k)) := by
  induction k generalizing n v with
  | zero => simp
  | succ k ih =>
    cases n with
    | zero => simp [toWords]
    | succ n =>
      rw [toWords, List.drop_succ_cons, ih, Nat.div_div_eq_div_mul, ← Nat.pow_add, Nat.mul_succ, Nat.add_comm w,
        Nat.succ_sub_succ]

theorem toWords_zero (w n : Nat) : ∀ a ∈ toWords w n 0, a = 0 := by
  induction n with
  | zero => simp [toWords]
  | succ n ih => simpa [toWords] using ih

/-- The most significant bit of a left-aligned significand: bit `W - 1` of word `n - 1` (rule R112). -/
theorem leftAligned_top_index {w p : Nat} (hw : 0 < w) (hp : 1 ≤ p) :
    w - 1 + w * (wordsFor w p - 1) = padBits w p + (p - 1) := by
  have hmul := wordsFor_mul w p hw
  obtain ⟨k, hk⟩ : ∃ k, wordsFor w p = k + 1 := Nat.exists_eq_add_of_le' (wordsFor_pos w p hw hp)
  rw [hk, Nat.succ_mul, Nat.mul_comm] at hmul
  rw [hk, Nat.add_sub_cancel]
  omega

/-- The low 64 bits of the bundle of a Finite value are its header. -/
theorem encodeBundle_fin_field_low (b : Build) (s : Bool) (e : Int) (p m : Nat) :
    field (encodeBundle b (.fin s e p m)) 63 0 = packHeader s 1 (p % 2 ^ 24) (e % 2 ^ 32).toNat :=
  (field_low _).trans (packBundle_header _ _ _ (finite_header_lt s e p))

/-- A bundle with the header of a Finite value decodes as its fields and words do. -/
theorem decodeBundle_of_finite_header {b : Build} {B : Nat} {s : Bool} {p e : Nat} (hp : p < 2 ^ 24) (he : e < 2 ^ 32)
    (h : field B 63 0 = packHeader s 1 p e) :
    decodeBundle b B = decodeFinite b s (sext 32 e) p (bundleWords b B) := by
  obtain ⟨hres, hsgn, hcls, hprec, hexp⟩ := fields_packHeader s (c := 1) (by norm_num) hp he
  simp [decodeBundle, h, hres, hsgn, hcls, hprec, hexp]

/-- The words of `M << pad` pass the checks of rule R312, and denote `M`. -/
theorem decodeFinite_leftAligned {b : Build} {s : Bool} {e : Int} {p m : Nat} (hw : 0 < b.w)
    (hz : (Flt.fin s e p m).Legal b) :
    decodeFinite b s e p (toWords b.w b.nwMax (m * 2 ^ padBits b.w p)) = some (.fin s e p m) := by
  obtain ⟨hp1, hp2, he1, he2, hm1, hm2⟩ := hz
  have hn1 := wordsFor_pos b.w p hw hp1
  have hn2 := wordsFor_le b.w p b.nwMax hw hp2
  have hlt := leftAligned_lt hw hm2
  rw [decodeFinite_of_checks hp1 hp2 he1 he2 ?_ ?_ ?_, toWords_take _ _ _ _ hn2, wordsValue_toWords,
    Nat.mod_eq_of_lt hlt, Nat.mul_div_cancel _ (Nat.two_pow_pos _)]
  · rw [toWords_getD _ _ _ _ (by omega), bitAt_eq_testBit]
    exact leftAligned_top_bit hw hp1 hm1 hm2
  · rw [toWords_getD _ _ _ _ (by omega), Nat.mul_zero, Nat.pow_zero, Nat.div_one]
    exact leftAligned_padding_zero hw
  · rw [toWords_drop, Nat.div_eq_of_lt hlt]
    exact toWords_zero _ _

theorem Build.Legal.pMax_lt {b : Build} (hb : b.Legal) : b.pMax < 2 ^ 24 := by
  obtain ⟨-, -, hp, -⟩ := hb
  rw [Build.pMax]
  omega

theorem decodeBundle_encodeBundle {b : Build} {z : Flt} (hb : b.Legal) (hz : z.Legal b) :
    decodeBundle b (encodeBundle b z) = some z := by
  have hw := hb.w_pos
  cases z with
  | nan => exact decodeBundle_special hw false (c := 3) (by omega) (by omega)
  | inf s => exact decodeBundle_special hw s (c := 2) (by omega) (by omega)
  | zero s => exact decodeBundle_special hw s (c := 0) (by omega) (by omega)
  | fin s e p m =>
    have hpmax := hb.pMax_lt
    obtain ⟨-, -, -, hemin, -, -, hemax, -⟩ := hb
    obtain ⟨hp1, hp2, he1, he2, hm1, hm2⟩ := hz
    have hhead := encodeBundle_fin_field_low b s e p m
    rw [decodeBundle_of_finite_header (by omega) (by omega) hhead, sext_emod e (by omega) (by omega),
      Nat.mod_eq_of_lt (by omega : p < 2 ^ 24), bundleWords_eq _ _ hw, encodeBundle_fin_words s e hw hp2 hm2]
    exact decodeFinite_leftAligned hw ⟨hp1, hp2, he1, he2, hm1, hm2⟩

/-- The words that pass the checks of rule R312 are those of `M << pad` for a significand `M` of `p` bits. -/
theorem leftAligned_of_checks {w n p V : Nat} (hw : 0 < w) (hp : 1 ≤ p) (hn : wordsFor w p ≤ n)
    (hV : V < 2 ^ (w * n)) (htop : bitAt ((toWords w n V).getD (wordsFor w p - 1) 0) (w - 1) = true)
    (hpad : (toWords w n V).getD 0 0 % 2 ^ padBits w p = 0)
    (hrest : ∀ a ∈ (toWords w n V).drop (wordsFor w p), a = 0) :
    let m := wordsValue w ((toWords w n V).take (wordsFor w p)) / 2 ^ padBits w p
    V = m * 2 ^ padBits w p ∧ 2 ^ (p - 1) ≤ m ∧ m < 2 ^ p := by
  have hn1 := wordsFor_pos w p hw hp
  have hpow : (2 : Nat) ^ (w * wordsFor w p) = 2 ^ p * 2 ^ padBits w p := by
    rw [Nat.mul_comm w, wordsFor_mul w p hw, Nat.pow_add]
  have htake : wordsValue w ((toWords w n V).take (wordsFor w p)) = V := by
    have hall : wordsValue w (toWords w n V) = V := by rw [wordsValue_toWords, Nat.mod_eq_of_lt hV]
    rwa [← List.take_append_drop (wordsFor w p) (toWords w n V), wordsValue_append, wordsValue_eq_zero w hrest,
      Nat.mul_zero, Nat.add_zero] at hall
  have hlt : V < 2 ^ p * 2 ^ padBits w p := by
    rw [← hpow, ← htake, toWords_take _ _ _ _ hn, wordsValue_toWords]
    exact Nat.mod_lt _ (Nat.two_pow_pos _)
  have hmul : V % 2 ^ padBits w p = 0 := by
    rwa [toWords_getD _ _ _ _ (by omega), Nat.mul_zero, Nat.pow_zero, Nat.div_one,
      Nat.mod_mod_of_dvd _ (Nat.pow_dvd_pow 2 (padBits_lt w p hw).le)] at hpad
  have hge : 2 ^ (p - 1) * 2 ^ padBits w p ≤ V := by
    rw [toWords_getD _ _ _ _ (by omega), bitAt_eq_testBit, Nat.testBit_mod_two_pow, Nat.testBit_div_two_pow,
      leftAligned_top_index hw hp, Bool.and_eq_true] at htop
    rw [← Nat.pow_add, Nat.add_comm]
    exact Nat.ge_two_pow_of_testBit htop.2
  rw [htake]
  exact ⟨(Nat.div_mul_cancel (Nat.dvd_of_mod_eq_zero hmul)).symm, (Nat.le_div_iff_mul_le (Nat.two_pow_pos _)).2 hge,
    (Nat.div_lt_iff_lt_mul (Nat.two_pow_pos _)).2 hlt⟩

/-- The part of a bundle above its header fits the words. -/
theorem bundle_words_lt {b : Build} {B : Nat} (hB : B < 2 ^ b.bundleBits) : B / 2 ^ 64 < 2 ^ (b.w * b.nwMax) := by
  rw [Nat.div_lt_iff_lt_mul (Nat.two_pow_pos _), ← Nat.pow_add, Nat.add_comm, Nat.mul_comm b.w]
  exact hB

/-- A bundle that decodes to a Finite value is the encoding of a legal Float. -/
theorem finite_bundle_canonical {b : Build} {B : Nat} {s : Bool} {p e : Nat} {z : Flt} (hb : b.Legal)
    (hB : B < 2 ^ b.bundleBits) (hp : p < 2 ^ 24) (he : e < 2 ^ 32) (hhead : packHeader s 1 p e = field B 63 0)
    (hfin : decodeFinite b s (sext 32 e) p (bundleWords b B) = some z) : z.Legal b ∧ encodeBundle b z = B := by
  have hw := hb.w_pos
  rw [bundleWords_eq b B hw] at hfin
  obtain ⟨hp1, hp2, he1, he2, htop, hpad, hrest, rfl⟩ := decodeFinite_some hfin
  obtain ⟨hV, hm1, hm2⟩ :=
    leftAligned_of_checks hw hp1 (wordsFor_le b.w p b.nwMax hw hp2) (bundle_words_lt hB) htop hpad hrest
  have hwords := encodeBundle_fin_words s (sext 32 e) hw hp2 hm2
  have hlow := encodeBundle_fin_field_low b s (sext 32 e) p
    (wordsValue b.w ((toWords b.w b.nwMax (B / 2 ^ 64)).take (wordsFor b.w p)) / 2 ^ padBits b.w p)
  rw [← hV] at hwords
  rw [Nat.mod_eq_of_lt hp, emod_sext he, hhead, field_low, field_low] at hlow
  exact ⟨⟨hp1, hp2, he1, he2, hm1, hm2⟩, by omega⟩

theorem decodeBundle_canonical {b : Build} {B : Nat} {z : Flt} (hb : b.Legal) (hB : B < 2 ^ b.bundleBits)
    (h : decodeBundle b B = some z) : z.Legal b ∧ encodeBundle b z = B := by
  obtain ⟨hres, hcase⟩ := decodeBundle_some h
  have hhead := packHeader_of_fields (field_lt B 63 0) hres
  rcases hcase with ⟨hcls, hfin⟩ | ⟨hexp, hprec, hzero, hspecial⟩
  · rw [hcls] at hhead
    exact finite_bundle_canonical hb hB (field_lt _ 55 32) (field_lt _ 31 0) hhead hfin
  have hwords : B / 2 ^ 64 = 0 := by
    rw [← Nat.mod_eq_of_lt (bundle_words_lt hB), ← wordsValue_bundleWords b B hb.w_pos]
    exact wordsValue_eq_zero _ hzero
  have hB64 : field B 63 0 = B := by
    rw [field_low]
    omega
  rw [hprec, hexp, hB64] at hhead
  rw [hB64] at hspecial
  rcases hspecial with ⟨hcls, hs, rfl⟩ | ⟨hcls, rfl⟩ | ⟨hcls, rfl⟩ <;> rw [hcls] at hhead
  · rw [hs] at hhead
    exact ⟨trivial, hhead⟩
  · exact ⟨trivial, hhead⟩
  · exact ⟨trivial, hhead⟩

/-! ## The statements -/

/-- Settles O6: a special value is its header, and the words of a Finite value are those of `M << pad`. -/
theorem bundleDecodeEncode : Obligations.BundleDecodeEncode :=
  fun b z hb hz => ⟨encodeBundle_lt b z, decodeBundle_encodeBundle hb hz⟩

/-- Settles O7: the checks of rule R312 leave one bundle for each Float. -/
theorem legalBundleIsCanonical : Obligations.LegalBundleIsCanonical :=
  fun _ _ _ hb hB h => decodeBundle_canonical hb hB h

end Sys2Proof
end

section
/-! SUPPORT. The fields of a response word (rules R320 to R325), and the failures that come before any operand is looked
at (rules R305, R312). -/

namespace Sys2Proof.Machine

/-! ## The fields of a response word -/

/-- The fields of a packed response word are those it is packed of, and its bits 31:12 are 0. -/
theorem fields_packResponse {st ord g : Nat} (rb sb inc : Bool) (hst : st < 16) (hord : ord < 4) (hg : g < 8) :
    let r := packResponse st ord g rb sb inc
    statusOf r = st ∧ ordOf r = ord ∧ regimeOf r = g ∧ rbOf r = rb ∧ sbOf r = sb ∧ incOf r = inc ∧
      field r.toNat 31 12 = 0 := by
  have h1 := Bool.toNat_le rb
  have h2 := Bool.toNat_le sb
  have h3 := Bool.toNat_le inc
  have hval : (packResponse st ord g rb sb inc).toNat =
      inc.toNat * 2 ^ 11 + sb.toNat * 2 ^ 10 + rb.toNat * 2 ^ 9 + g * 2 ^ 6 + ord * 2 ^ 4 + st :=
    Nat.mod_eq_of_lt (by omega)
  have hbit : ∀ (b : Bool) (k : Nat), k % 2 = b.toNat → (k % 2 == 1) = b := by
    rintro (_ | _) k hk <;> rw [hk] <;> rfl
  simp only [statusOf, ordOf, regimeOf, rbOf, sbOf, incOf, bitAt, field, hval]
  refine ⟨by omega, by omega, by omega, hbit _ _ (by omega), hbit _ _ (by omega), hbit _ _ (by omega), by omega⟩

theorem orderCode_lt (o : OrderRel) : orderCode o < 4 := by cases o <;> decide

theorem regimeCode_lt (g : Regime) : regimeCode g < 8 := by cases g <;> decide

/-- The fields of the response word of a delivered result (rule R320). -/
theorem fields_okResponse (b : Build) (d : Delivery) :
    let r := (okResponse b d).word
    statusOf r = 0 ∧ ordOf r = orderCode d.ord ∧ regimeOf r = regimeCode d.regime ∧ rbOf r = d.rb ∧
      sbOf r = d.sb ∧ incOf r = d.inc ∧ field r.toNat 31 12 = 0 :=
  fields_packResponse d.rb d.sb d.inc (by omega) (orderCode_lt d.ord) (regimeCode_lt d.regime)

theorem faultCode_eq_two_iff (f : FaultStatus) : faultCode f = 2 ↔ f = .invalidPrecision := by cases f <;> decide

/-- The word of a failure has every bit above STATUS 0 (rule R325). -/
theorem faultResponse_bits (f : FaultStatus) :
    (faultResponse f).word.extractLsb' 4 28 = 0#28 ∧ ordOf (faultResponse f).word ≠ 2 ∧
      (faultResponse f).word.extractLsb' 12 20 = 0#20 := by cases f <;> decide

/-! ## What a command answers -/

/-- All that AddCore can do (rule R500): a special value, which is not Finite; the rounding of the exact value of the
operands; or SUB_REQUIRED. -/
theorem addCore_cases (b : Build) (p : Nat) (m : RoundMode) (x y : Flt) :
    (∃ v, v.Legal b ∧ addCore b p m x y = special v) ∨
    (∃ sg v g, exactValueOf x y = some (sg, v) ∧
      addCore b p m x y = deliverRounded (roundSOR b.emax v.n v.q sg p m) g) ∨
    addCore b p m x y = .error .subRequired := by
  cases hv : exactValueOf x y with
  | some sv =>
    obtain ⟨g, hg⟩ := addCore_of_exactValue b p m hv
    exact .inr (.inl ⟨sv.1, sv.2, g, rfl, hg⟩)
  | none =>
    cases x with
    | nan => exact .inl ⟨.nan, trivial, addCore_nan_left b p m y⟩
    | inf s =>
      cases y with
      | nan => exact .inl ⟨.nan, trivial, rfl⟩
      | inf s' =>
        refine .inl ⟨_, ?_, addCore_inf_inf b p m s s'⟩
        split <;> trivial
      | zero s' => exact .inl ⟨.inf s, trivial, rfl⟩
      | fin s' e q t => exact .inl ⟨.inf s, trivial, rfl⟩
    | zero s =>
      cases y with
      | nan => exact .inl ⟨.nan, trivial, rfl⟩
      | inf s' => exact .inl ⟨.inf s', trivial, rfl⟩
      | zero s' =>
        refine .inl ⟨_, ?_, addCore_zero_zero b p m s s'⟩
        unfold zeroSum
        split_ifs <;> trivial
      | fin s' e q t => cases hv
    | fin s e q t =>
      cases y with
      | nan => exact .inl ⟨.nan, trivial, rfl⟩
      | inf s' => exact .inl ⟨.inf s', trivial, rfl⟩
      | zero s' => cases hv
      | fin s' e' q' t' =>
        have hs : s ≠ s' := fun hs => by simp [exactValueOf, hs] at hv
        exact .inr (.inr (if_pos hs))

/-- AddCore fails with INEXACT, EXP_OVERFLOW or SUB_REQUIRED alone (rule R610). -/
theorem addCore_error {b : Build} {p : Nat} {m : RoundMode} {x y : Flt} {f : FaultStatus}
    (h : addCore b p m x y = .error f) : f = .inexact ∨ f = .expOverflow ∨ f = .subRequired := by
  rcases addCore_cases b p m x y with ⟨v, -, hv⟩ | ⟨sg, v, g, -, hv⟩ | hv <;> rw [hv] at h
  · cases h
  · cases hr : roundSOR b.emax v.n v.q sg p m with
    | ok r => rw [hr] at h; cases h
    | error f' =>
      rw [hr] at h
      injection h with h
      rcases roundSOR_error hr with ⟨hf, -⟩ | hf
      · exact .inl (h ▸ hf)
      · exact .inr (.inl (h ▸ hf))
  · injection h with h
    exact .inr (.inr h.symm)

/-- A command with a valid precision and decoded operands answers AddCore at the target precision and the mode it asks
for. -/
theorem answerOf_eq_addCore {i : Instr} {s : State} {x y : Flt} (hp : i.PrecisionValid s.build) (hxy : s.Holds x y) :
    answerOf i s = addCore s.build (targetOf i x y) (modeOf i) x y :=
  (answerOf_of_holds hp hxy.1 hxy.2).trans (by cases i <;> rfl)

/-- A command with a valid precision never fails with INVALID_PRECISION. -/
theorem answerOf_ne_invalidPrecision {i : Instr} {s : State} (hp : i.PrecisionValid s.build) :
    answerOf i s ≠ .error .invalidPrecision := by
  intro h
  cases hx : decodeBundle s.build s.req.x with
  | none =>
    rw [answerOf_of_invalid_operand hp (.inl hx)] at h
    cases h
  | some x =>
    cases hy : decodeBundle s.build s.req.y with
    | none =>
      rw [answerOf_of_invalid_operand hp (.inr hy)] at h
      cases h
    | some y =>
      rw [answerOf_eq_addCore hp ⟨hx, hy⟩] at h
      simpa using addCore_error h

/-- A failing operation completes with its status code and nothing else (rule R603). -/
theorem respond_error (s : State) (f : FaultStatus) :
    s.respond (.error f) = s.complete { word := BitVec.ofNat 32 (faultCode f), z := 0 } :=
  congrArg s.complete (faultResponse_eq f)

/-! ## The statements -/

/-- Settles O9: the fields of the two packed words, read as bits. -/
theorem responseWordFields : Obligations.ResponseWordFields := by
  constructor
  · intro b d r
    obtain ⟨hst, hord, hreg, hrb, hsb, hinc, hhigh⟩ := fields_okResponse b d
    refine ⟨(extractLsb'_eq_ofNat_iff r (by omega) (by omega)).2 hst, ?_, ?_, (getLsbD_eq_bitAt r 9).trans hrb,
      (getLsbD_eq_bitAt r 10).trans hsb, (getLsbD_eq_bitAt r 11).trans hinc,
      (extractLsb'_eq_ofNat_iff r (by omega) (by omega)).2 hhigh⟩
    · rw [(extractLsb'_eq_ofNat_iff r (lo := 4) (n := 2) (by omega) (orderCode_lt d.ord)).2 hord]
      cases d.ord <;> rfl
    · rw [(extractLsb'_eq_ofNat_iff r (lo := 6) (n := 3) (by omega) (regimeCode_lt d.regime)).2 hreg]
      cases d.regime <;> rfl
  · intro f r
    refine ⟨?_, (faultResponse_bits f).1⟩
    cases f <;> rfl

/-- Settles O10: a response is that of a delivered result, whose STATUS is OK, or that of a failure. -/
theorem faultResponsesAndReservedCodes : Obligations.FaultResponsesAndReservedCodes := by
  intro b q
  rw [respondTo, toNat_extractLsb'_eq_field _ 0 4 (by omega)]
  cases execute b q.cmd q.x q.y with
  | ok d =>
    obtain ⟨hst, hord, -, -, -, -, hhigh⟩ := fields_okResponse b d
    refine ⟨fun h => absurd hst h, hst.trans_le (by omega), ?_,
      (extractLsb'_eq_ofNat_iff _ (by omega) (by omega)).2 hhigh⟩
    rw [responseOf, hord]
    cases d.ord <;> decide
  | error f =>
    obtain ⟨hlow, hord, hhigh⟩ := faultResponse_bits f
    exact ⟨fun _ => ⟨hlow, rfl⟩, (statusOf_fault f).trans_le (faultCode_pos f).2, hord, hhigh⟩

/-- Settles O40: the precision is checked before the operands, and no later check has its status. -/
theorem invalidPrecisionIsReported : Obligations.InvalidPrecisionIsReported := by
  refine ⟨fun s p m hp => ?_, fun s u i hi hu hst => ?_⟩
  · have hbad : ¬ (1 ≤ p ∧ p ≤ s.build.pMax) := by
      rw [Build.pMax]
      omega
    constructor
    · rw [exec_eq, answerOf_of_invalid_precision (i := .addPrecRound p m) hbad, respond_error]
      rfl
    · rw [exec_eq, answerOf_of_invalid_precision (i := .addPrec p) hbad, respond_error]
      rfl
  · rw [exec_next_iff.1 hu, respond_rsp] at hst
    cases ha : answerOf i s with
    | ok d =>
      rw [ha, responseOf, statusOf_ok] at hst
      cases hst
    | error f =>
      rw [ha, responseOf, statusOf_fault] at hst
      exact answerOf_ne_invalidPrecision hi ((faultCode_eq_two_iff f).1 hst ▸ ha)

/-- Settles O41: an operand that does not decode is answered before AddCore is reached. -/
theorem invalidOperandIsReported : Obligations.InvalidOperandIsReported := by
  intro i s hi h
  rw [exec_eq, answerOf_of_invalid_operand hi h, respond_error]
  rfl

end Sys2Proof.Machine
end

section
/-! SUPPORT. What a rounding delivers, as a number: the cut to a precision brackets the exact value, and the Ordering
compares the two (rules R323, R427, R430, R434). -/

namespace Sys2Proof

/-! ## Numbers `n * 2^q` (rule R400) -/

theorem scaled_add (m n : Nat) (q : Int) : scaled (m + n) q = scaled m q + scaled n q := by
  simp only [scaled, Nat.cast_add, add_mul]

theorem scaled_mul_two_pow (n d : Nat) (q : Int) : scaled (n * 2 ^ d) q = scaled n (q + d) := by
  rw [scaled, scaled, zpow_add₀ (by norm_num), zpow_natCast, Nat.cast_mul, Nat.cast_pow, Nat.cast_ofNat]
  ring

theorem scaled_lt_scaled {m n : Nat} {q : Int} : scaled m q < scaled n q ↔ m < n := by
  rw [scaled, scaled, mul_lt_mul_iff_left₀ (by positivity), Nat.cast_lt]

theorem scaled_inj {m n : Nat} {q : Int} : scaled m q = scaled n q ↔ m = n := by
  rw [scaled, scaled, mul_left_inj' (by positivity), Nat.cast_inj]

theorem scaled_zero (q : Int) : scaled 0 q = 0 := by simp [scaled]

theorem signed_add (s : Bool) (x y : ℚ) : signed s (x + y) = signed s x + signed s y := by
  cases s <;> simp [signed, add_comm]

namespace Machine

/-! ## The cut (rule R430) -/

theorem lt_bitlen_of_two_pow_le {n k : Nat} (h : 2 ^ k ≤ n) : k < bitlen n :=
  (Nat.pow_lt_pow_iff_right (by omega)).1 (h.trans_lt (lt_two_pow_bitlen n))

theorem bitlen_le_of_lt_two_pow {n k : Nat} (h : n < 2 ^ k) : bitlen n ≤ k := by
  rcases Nat.eq_zero_or_pos n with rfl | hn
  · exact Nat.zero_le k
  · have := (Nat.pow_lt_pow_iff_right (by omega)).1 ((bitlen_bounds hn).1.trans_lt h)
    omega

/-- Nothing is discarded exactly when the bits below the last retained one are zero. -/
theorem cutTo_exact_iff (n p : Nat) :
    inexactOf (cutTo n p).r (cutTo n p).st = false ↔ n % 2 ^ (bitlen n - p) = 0 := by
  rcases le_or_gt (bitlen n) p with hf | hf
  · rw [cutTo_of_fits hf, Nat.sub_eq_zero_of_le hf, Nat.pow_zero, Nat.mod_one]
    exact iff_of_true rfl rfl
  · obtain ⟨d, hd⟩ : ∃ d, bitlen n - p = d + 1 := Nat.exists_eq_add_of_le' (by omega)
    have hsplit : n % 2 ^ (d + 1) = n % 2 ^ d + 2 ^ d * (n / 2 ^ d % 2) := by rw [Nat.pow_succ, Nat.mod_mul]
    rw [cutTo_of_exceeds hf, hd, Nat.add_sub_cancel, inexactOf, Bool.or_eq_false_iff, bitAt_eq_false_iff,
      decide_eq_false_iff_not, not_not, hsplit, Nat.add_eq_zero_iff, Nat.mul_eq_zero]
    have hpos := (Nat.two_pow_pos d).ne'
    tauto

/-- The retained bits and the discarded ones make up the number. -/
theorem scaled_cutTo (n p : Nat) (q : Int) :
    scaled n q = scaled (cutTo n p).t (q + bitlen n - p) + scaled (n % 2 ^ (bitlen n - p)) q := by
  rcases le_or_gt (bitlen n) p with hf | hf
  · have hq : q + bitlen n - p + ((p - bitlen n : Nat) : Int) = q := by omega
    rw [cutTo_of_fits hf, Nat.sub_eq_zero_of_le hf, Nat.pow_zero, Nat.mod_one, scaled_zero, add_zero,
      scaled_mul_two_pow, hq]
  · have hq : q + bitlen n - p = q + ((bitlen n - p : Nat) : Int) := by omega
    rw [cutTo_of_exceeds hf, hq, ← scaled_mul_two_pow, ← scaled_add, Nat.div_add_mod']

/-- What is discarded is less than one unit in the last retained place. -/
theorem scaled_discarded_lt (n p : Nat) (q : Int) :
    scaled (n % 2 ^ (bitlen n - p)) q < scaled 1 (q + bitlen n - p) := by
  rcases le_or_gt (bitlen n) p with hf | hf
  · rw [Nat.sub_eq_zero_of_le hf, Nat.pow_zero, Nat.mod_one, scaled_zero]
    exact mul_pos (by norm_num) (zpow_pos (by norm_num) _)
  · have hq : q + bitlen n - p = q + ((bitlen n - p : Nat) : Int) := by omega
    rw [hq, ← scaled_mul_two_pow, one_mul, scaled_lt_scaled]
    exact Nat.mod_lt _ (Nat.two_pow_pos _)

/-- The cut brackets the exact value by one unit, and meets it exactly when nothing is discarded. -/
theorem cutTo_bracket (n p : Nat) (q : Int) :
    scaled (cutTo n p).t (q + bitlen n - p) ≤ scaled n q ∧
    scaled n q < scaled ((cutTo n p).t + 1) (q + bitlen n - p) ∧
    (scaled (cutTo n p).t (q + bitlen n - p) = scaled n q ↔ inexactOf (cutTo n p).r (cutTo n p).st = false) := by
  have hcut := scaled_cutTo n p q
  have hlt := scaled_discarded_lt n p q
  have hnonneg : 0 ≤ scaled (n % 2 ^ (bitlen n - p)) q := by
    rw [scaled]
    positivity
  refine ⟨by linarith, by rw [scaled_add]; linarith, ?_⟩
  rw [cutTo_exact_iff, ← scaled_inj (q := q), scaled_zero]
  constructor <;> intro h <;> linarith

/-- The increment adds one unit in the last place, also when it renormalizes. -/
theorem scaled_increment {inc : Bool} {t p : Nat} (e : Int) (hp : 1 ≤ p) :
    scaled (increment inc t e p).1 ((increment inc t e p).2 - p + 1) = scaled (t + inc.toNat) (e - p + 1) := by
  unfold increment
  split
  · next h => rw [h]; rfl
  · next h =>
    rw [Bool.not_eq_false] at h
    rw [h, Bool.toNat_true]
    split
    · next hcarry =>
      have hpow : 2 ^ p = 2 ^ (p - 1) * 2 ^ 1 := by rw [← Nat.pow_add, Nat.sub_add_cancel hp]
      have hexp : e - p + 1 + ((1 : Nat) : Int) = e + 1 - p + 1 := by omega
      rw [hcarry, hpow, scaled_mul_two_pow, hexp]
    · rfl

/-! ## The Ordering (rules R323, R427) -/

/-- `o` is the Ordering of `z` against `x`: the sign of `z - x`. -/
def OrdersAs (o : OrderRel) (z x : ℚ) : Prop :=
  match o with
  | .less => z < x
  | .equal => z = x
  | .greater => x < z

/-- Without discarded bits nothing is incremented. -/
theorem incrementOf_of_exact {r st : Bool} (lsb s : Bool) (m : RoundMode) (h : inexactOf r st = false) :
    incrementOf lsb r st s m = false := by
  have hr : r = false := (Bool.or_eq_false_iff.1 h).1
  cases m with
  | nearest => rw [incrementOf, hr, Bool.false_and]
  | floor => rw [incrementOf, h, Bool.false_and]
  | ceil => rw [incrementOf, h, Bool.false_and]
  | away => exact h
  | trunc => rfl
  | exact => rfl

/-- The Ordering that the engine gives compares the signed magnitudes: an increment goes above the exact magnitude, and
no increment leaves the result below it, unless nothing is discarded. -/
theorem orderOf_ordersAs {r st s inc : Bool} {z x : ℚ} (hexact : inexactOf r st = false → z = x)
    (hup : inexactOf r st = true → inc = true → x < z) (hdown : inexactOf r st = true → inc = false → z < x) :
    OrdersAs (orderOf r st s inc) (signed s z) (signed s x) := by
  cases hi : inexactOf r st with
  | false => simp [orderOf, hi, OrdersAs, hexact hi]
  | true =>
    cases inc with
    | true => cases s <;> simpa [orderOf, hi, OrdersAs, signed] using hup hi rfl
    | false => cases s <;> simpa [orderOf, hi, OrdersAs, signed] using hdown hi rfl

/-- The Ordering of a rounding is that of the delivered number against the exact one. -/
theorem roundSOR_ordersAs {emax : Int} {n : Nat} {q : Int} {s : Bool} {p : Nat} {m : RoundMode} {r : Rounded} {z : ℚ}
    (hp : 1 ≤ p) (h : roundSOR emax n q s p m = .ok r) (hz : r.z.toRat = some z) :
    OrdersAs r.ord z (signed s (scaled n q)) := by
  obtain ⟨hreng, hfin, -, -, -⟩ := roundCut_ok h
  obtain ⟨-, hinc, hord⟩ := reng_ok hreng
  obtain ⟨hlow, hhigh, hmeet⟩ := cutTo_bracket n p q
  have hunit : q + bitlen n - 1 - p + 1 = q + bitlen n - p := by omega
  rw [hfin, Flt.toRat, Option.some_inj, scaled_increment _ hp, hunit] at hz
  dsimp only at hinc hord
  rw [← hz, hord]
  refine orderOf_ordersAs (fun hi => ?_) (fun _ hup => ?_) (fun hi hdown => ?_)
  · rw [hinc, incrementOf_of_exact _ _ _ hi]
    exact hmeet.2 hi
  · rw [hup]
    exact hhigh
  · rw [hdown]
    exact lt_of_le_of_ne hlow fun heq => by simp [hmeet.1 heq] at hi

/-! ## Representable values (rule R434) -/

/-- A value is representable at a precision exactly when the cut to it discards nothing. -/
theorem representable_iff_cut_exact {n p : Nat} (q : Int) (hn : 0 < n) (hp : 1 ≤ p) :
    Representable p (scaled n q) ↔ inexactOf (cutTo n p).r (cutTo n p).st = false := by
  constructor
  · rintro ⟨m, k, hm1, hm2, heq⟩
    rw [cutTo_exact_iff]
    rcases le_total q k with hqk | hkq
    · obtain ⟨d, rfl⟩ := Int.le.dest hqk
      rw [← scaled_mul_two_pow, scaled_inj] at heq
      have hlen : bitlen n = p - 1 + d + 1 := by
        refine bitlen_eq_of_bounds ?_ ?_
        · rw [heq, Nat.pow_add]
          exact Nat.mul_le_mul_right _ hm1
        · rw [heq, show p - 1 + d + 1 = p + d by omega, Nat.pow_add]
          exact Nat.mul_lt_mul_of_pos_right hm2 (Nat.two_pow_pos d)
      rw [hlen, show p - 1 + d + 1 - p = d by omega, heq, Nat.mul_mod_left]
    · obtain ⟨d, rfl⟩ := Int.le.dest hkq
      rw [← scaled_mul_two_pow, scaled_inj] at heq
      have hle : n ≤ m := heq ▸ Nat.le_mul_of_pos_right n (Nat.two_pow_pos d)
      rw [Nat.sub_eq_zero_of_le (bitlen_le_of_lt_two_pow (hle.trans_lt hm2)), Nat.pow_zero, Nat.mod_one]
  · intro hexact
    obtain ⟨h1, h2⟩ := cutTo_range hn hp
    exact ⟨_, _, h1, h2, ((cutTo_bracket n p q).2.2.2 hexact).symm⟩

/-! ## The statement -/

theorem finiteLiteral_eq_some_iff {s : Bool} {v : Exact} {p : Nat} {z : Flt} : finiteLiteral s v p = some z ↔
    v.n ≠ 0 ∧ 1 ≤ p ∧ inexactOf (cutTo v.n p).r (cutTo v.n p).st = false ∧
      z = .fin s (v.q + bitlen v.n - 1) p (cutTo v.n p).t := by
  rw [inexactOf, Bool.or_eq_false_iff, ← Bool.not_eq_true, ← Bool.not_eq_true, ← not_or]
  unfold finiteLiteral
  split_ifs with h0 hcut
  · simp only [false_iff]
    omega
  · simp [hcut]
  · rw [Option.some_inj]
    exact ⟨fun h => ⟨by omega, by omega, hcut, h.symm⟩, fun ⟨_, _, _, h⟩ => h.symm⟩

/-- Settles O59: a literal is well formed exactly when the cut of its value discards nothing, and then it is the cut. -/
theorem finiteLiteralDenotesItsValue : Obligations.FiniteLiteralDenotesItsValue := by
  intro s v p
  refine ⟨⟨fun ⟨z, hz⟩ => ?_, fun ⟨hn, hp, hrep⟩ => ?_⟩, fun z hz => ?_⟩
  · obtain ⟨hn, hp, hexact, -⟩ := finiteLiteral_eq_some_iff.1 hz
    exact ⟨hn, hp, (representable_iff_cut_exact v.q (Nat.pos_of_ne_zero hn) hp).2 hexact⟩
  · have hexact := (representable_iff_cut_exact v.q (Nat.pos_of_ne_zero hn) hp).1 hrep
    exact ⟨_, finiteLiteral_eq_some_iff.2 ⟨hn, hp, hexact, rfl⟩⟩
  · obtain ⟨-, -, hexact, rfl⟩ := finiteLiteral_eq_some_iff.1 hz
    have hunit : v.q + bitlen v.n - 1 - p + 1 = v.q + bitlen v.n - p := by omega
    rw [Flt.toRat, hunit, (cutTo_bracket v.n p v.q).2.2.2 hexact]
    exact ⟨rfl, rfl⟩

end Machine
end Sys2Proof
end

section
/-! SUPPORT. What a request that does not fail delivers: a legal Float, so that its response decodes (rules R313, R432,
R500), with the Ordering of the exact sum (rule R323). -/

namespace Sys2Proof

/-! ## Bundles as ports carry them (rule R100) -/

theorem toWords_mod (w n v : Nat) : toWords w n (v % 2 ^ (w * n)) = toWords w n v := by
  induction n generalizing v with
  | zero => rfl
  | succ n ih =>
    rw [toWords, toWords, Nat.mul_succ, Nat.add_comm, Nat.pow_add, Nat.mod_mul_right_mod, Nat.mod_mul_right_div_self,
      ih]

/-- The decoder reads the bits of the port alone. -/
theorem decodeBundle_cutBundle {b : Build} (hw : 0 < b.w) (B : Nat) :
    decodeBundle b (cutBundle b B) = decodeBundle b B := by
  have hpow : 2 ^ b.bundleBits = 2 ^ 64 * 2 ^ (b.w * b.nwMax) := by
    rw [Build.bundleBits, Nat.mul_comm b.nwMax, Nat.pow_add]
  have hhead : field (cutBundle b B) 63 0 = field B 63 0 := by
    rw [field_low, field_low, cutBundle, hpow, Nat.mod_mul_right_mod]
  have hwords : bundleWords b (cutBundle b B) = bundleWords b B := by
    rw [bundleWords_eq _ _ hw, bundleWords_eq _ _ hw, cutBundle, hpow, Nat.mod_mul_right_div_self, toWords_mod]
  rw [decodeBundle, decodeBundle, hhead, hwords]

/-- Every Float that a bundle denotes is legal. -/
theorem decodeBundle_legal {b : Build} {B : Nat} {z : Flt} (hb : b.Legal) (h : decodeBundle b B = some z) :
    z.Legal b := by
  rw [← decodeBundle_cutBundle hb.w_pos] at h
  exact (decodeBundle_canonical hb (Nat.mod_lt _ (Nat.two_pow_pos _)) h).1

theorem Build.Legal.one_le_pMax {b : Build} (hb : b.Legal) : 1 ≤ b.pMax :=
  Nat.mul_pos (by obtain ⟨-, hnw, -⟩ := hb; omega) hb.w_pos

namespace Machine

/-! ## The target precision -/

theorem precisionOf_range {b : Build} {z : Flt} (hb : b.Legal) (hz : z.Legal b) :
    1 ≤ precisionOf z ∧ precisionOf z ≤ b.pMax := by
  cases z with
  | fin s e p m => exact ⟨hz.1, hz.2.1⟩
  | nan => exact ⟨le_rfl, hb.one_le_pMax⟩
  | inf s => exact ⟨le_rfl, hb.one_le_pMax⟩
  | zero s => exact ⟨le_rfl, hb.one_le_pMax⟩

/-- The target precision of a valid command on legal operands is a legal precision (rules R305, R501). -/
theorem targetOf_range {b : Build} {i : Instr} {x y : Flt} (hb : b.Legal) (hi : i.PrecisionValid b)
    (hx : x.Legal b) (hy : y.Legal b) : 1 ≤ targetOf i x y ∧ targetOf i x y ≤ b.pMax := by
  obtain ⟨hx1, hx2⟩ := precisionOf_range hb hx
  obtain ⟨hy1, hy2⟩ := precisionOf_range hb hy
  have hmax : 1 ≤ operandPrecision x y ∧ operandPrecision x y ≤ b.pMax := by
    rw [operandPrecision]
    omega
  cases i with
  | addPrecRound p m => exact hi
  | addPrec p => exact hi
  | addRound m => exact hmax
  | add => exact hmax

/-! ## The exact value of the operands -/

theorem scaled_addExact (ma : Nat) (qa : Int) (mb : Nat) (qb : Int) :
    scaled (addExact ma qa mb qb).n (addExact ma qa mb qb).q = scaled ma qa + scaled mb qb := by
  have ha : min qa qb + ((qa - min qa qb).toNat : Int) = qa := by omega
  have hb : min qa qb + ((qb - min qa qb).toNat : Int) = qb := by omega
  rw [addExact_n, addExact_q, scaled_add, scaled_mul_two_pow, scaled_mul_two_pow, ha, hb]

/-- The exact value that AddCore rounds is the sum of the operands (rules R402, R506). -/
theorem signed_exactValueOf {x y : Flt} {sg : Bool} {v : Exact} {xv yv : ℚ} (h : exactValueOf x y = some (sg, v))
    (hx : x.toRat = some xv) (hy : y.toRat = some yv) : signed sg (scaled v.n v.q) = xv + yv := by
  unfold exactValueOf at h
  split at h
  · cases h
    cases hx
    cases hy
    rw [zero_add]
    rfl
  · cases h
    cases hx
    cases hy
    rw [add_zero]
    rfl
  · split at h
    · next hs =>
      cases h
      cases hx
      cases hy
      rw [← hs, ← signed_add, exactSum, scaled_addExact]
      rfl
    · cases h
  · cases h

/-- The leading exponent of `m * 2^q`, at least that of a significand of `p` bits. -/
theorem le_leading_exponent {a : Magnitude} {n : Nat} {q : Int} (ha : 2 ^ (a.p - 1) ≤ a.m) (hp : 1 ≤ a.p)
    (hq : q ≤ a.ulp) (hn : a.m * 2 ^ (a.ulp - q).toNat ≤ n) : a.e ≤ q + bitlen n - 1 := by
  have hbits : 2 ^ (a.p - 1 + (a.ulp - q).toNat) ≤ n := by
    rw [Nat.pow_add]
    exact (Nat.mul_le_mul_right _ ha).trans hn
  have hlen := lt_bitlen_of_two_pow_le hbits
  rw [Magnitude.ulp] at hq hlen
  omega

/-- The exact value of legal operands is not zero, and its leading exponent is in the range of the build (rule R432). -/
theorem exactValueOf_range {b : Build} {x y : Flt} {sg : Bool} {v : Exact} (hx : x.Legal b) (hy : y.Legal b)
    (h : exactValueOf x y = some (sg, v)) : 0 < v.n ∧ b.emin ≤ v.q + bitlen v.n - 1 := by
  have single_range : ∀ (s : Bool) (e : Int) (p m : Nat), (Flt.fin s e p m).Legal b →
      0 < m ∧ b.emin ≤ (Magnitude.mk e p m).ulp + bitlen m - 1 := by
    rintro s e p m ⟨hp, -, he, -, hm, -⟩
    have := le_leading_exponent (a := ⟨e, p, m⟩) (n := m) hm hp le_rfl (by simp)
    exact ⟨(Nat.two_pow_pos _).trans_le hm, he.trans this⟩
  unfold exactValueOf at h
  split at h
  · cases h
    exact single_range _ _ _ _ hy
  · cases h
    exact single_range _ _ _ _ hx
  · next s e p m s' e' p' m' =>
    split at h
    · cases h
      obtain ⟨hp, -, he, -, hm, -⟩ := hx
      have hle : m * 2 ^ ((Magnitude.mk e p m).ulp - (exactSum ⟨e, p, m⟩ ⟨e', p', m'⟩).q).toNat ≤
          (exactSum ⟨e, p, m⟩ ⟨e', p', m'⟩).n := Nat.le_add_right _ _
      have hpos : 0 < m := (Nat.two_pow_pos _).trans_le hm
      exact ⟨(Nat.mul_pos hpos (Nat.two_pow_pos _)).trans_le hle,
        he.trans (le_leading_exponent (a := ⟨e, p, m⟩) hm hp (min_le_left _ _) hle)⟩
    · cases h
  · cases h

/-! ## What is delivered -/

theorem deliverRounded_ok {r : Except FaultStatus Rounded} {g : Regime} {d : Delivery}
    (h : deliverRounded r g = .ok d) : ∃ z, r = .ok z ∧ d.z = z.z ∧ d.ord = z.ord := by
  cases r with
  | error f => cases h
  | ok z =>
    cases h
    exact ⟨z, rfl, rfl, rfl⟩

/-- AddCore delivers a legal Float of legal operands at a legal precision. -/
theorem addCore_ok_legal {b : Build} {p : Nat} {m : RoundMode} {x y : Flt} {d : Delivery} (hp1 : 1 ≤ p)
    (hp2 : p ≤ b.pMax) (hx : x.Legal b) (hy : y.Legal b) (h : addCore b p m x y = .ok d) : d.z.Legal b := by
  rcases addCore_cases b p m x y with ⟨v, hv, hcore⟩ | ⟨sg, v, g, hval, hcore⟩ | hcore <;> rw [hcore] at h
  · cases h
    exact hv
  · obtain ⟨r, hr, hz, -⟩ := deliverRounded_ok h
    obtain ⟨hn, hmin⟩ := exactValueOf_range hx hy hval
    obtain ⟨e, t, hfin, ht1, ht2, he, -, hmax⟩ := roundSOR_ok_fin hn hp1 hr
    rw [hz, hfin]
    exact ⟨hp1, hp2, hmin.trans he, hmax, ht1, ht2⟩
  · cases h

theorem zeroSum_toRat (sx sy : Bool) (m : RoundMode) : (zeroSum sx sy m).toRat = some 0 := by
  unfold zeroSum
  split_ifs <;> rfl

/-- The Ordering that AddCore delivers for operands that denote numbers is that of its result against their sum. -/
theorem addCore_ok_ordersAs {b : Build} {p : Nat} {m : RoundMode} {x y : Flt} {d : Delivery} {xv yv zv : ℚ}
    (hp : 1 ≤ p) (h : addCore b p m x y = .ok d) (hx : x.toRat = some xv) (hy : y.toRat = some yv)
    (hz : d.z.toRat = some zv) : OrdersAs d.ord zv (xv + yv) := by
  cases hv : exactValueOf x y with
  | some sv =>
    obtain ⟨g, hcore⟩ := addCore_of_exactValue b p m hv
    rw [hcore] at h
    obtain ⟨r, hr, hdz, hord⟩ := deliverRounded_ok h
    rw [← signed_exactValueOf hv hx hy, hord]
    exact roundSOR_ordersAs hp hr (hdz ▸ hz)
  | none =>
    cases x with
    | nan => cases hx
    | inf s => cases hx
    | zero s =>
      cases y with
      | nan => cases hy
      | inf s' => cases hy
      | zero s' =>
        rw [addCore_zero_zero] at h
        cases h
        rw [zeroSum_toRat] at hz
        cases hx
        cases hy
        cases hz
        exact (add_zero 0).symm
      | fin s' e q t => cases hv
    | fin s e q t =>
      cases y with
      | nan => cases hy
      | inf s' => cases hy
      | zero s' => cases hv
      | fin s' e' q' t' =>
        have hs : s ≠ s' := fun hs => by simp [exactValueOf, hs] at hv
        rw [addCore_fin_fin, if_pos hs] at h
        cases h

/-- All that a command that does not fail says about its request: its precision is valid, its operands decode, and
AddCore delivered its answer. -/
theorem answerOf_ok {i : Instr} {s : State} {d : Delivery} (h : answerOf i s = .ok d) :
    i.PrecisionValid s.build ∧ ∃ x y, s.Holds x y ∧
      addCore s.build (targetOf i x y) (modeOf i) x y = .ok d := by
  have hp : i.PrecisionValid s.build := by
    by_contra hp
    rw [answerOf_of_invalid_precision hp] at h
    cases h
  refine ⟨hp, ?_⟩
  cases hx : decodeBundle s.build s.req.x with
  | none =>
    rw [answerOf_of_invalid_operand hp (.inl hx)] at h
    cases h
  | some x =>
    cases hy : decodeBundle s.build s.req.y with
    | none =>
      rw [answerOf_of_invalid_operand hp (.inr hy)] at h
      cases h
    | some y => exact ⟨x, y, ⟨hx, hy⟩, answerOf_eq_addCore hp ⟨hx, hy⟩ ▸ h⟩

/-- A command that does not fail delivers a legal Float. -/
theorem answerOf_ok_legal {i : Instr} {s : State} {d : Delivery} (hb : s.build.Legal) (h : answerOf i s = .ok d) :
    d.z.Legal s.build := by
  obtain ⟨hp, x, y, ⟨hx, hy⟩, hcore⟩ := answerOf_ok h
  have hxl := decodeBundle_legal hb hx
  have hyl := decodeBundle_legal hb hy
  obtain ⟨ht1, ht2⟩ := targetOf_range hb hp hxl hyl
  exact addCore_ok_legal ht1 ht2 hxl hyl hcore

/-- In a legal build, the bundle of a response with STATUS OK decodes (rule R313). -/
theorem decodeBundle_respondTo {b : Build} {q : Request} (hb : b.Legal) (h : statusOf (respondTo b q).word = 0) :
    ∃ z, decodeBundle b (respondTo b q).z = some z := by
  obtain ⟨d, hd⟩ := statusOf_responseOf_eq_zero.1 h
  cases hdec : decode q.cmd with
  | error e =>
    rw [execute_of_decode_error _ _ hdec] at hd
    cases hd
  | ok i =>
    have hanswer : answerOf i { State.reset with build := b, req := q } = .ok d :=
      (execute_of_decode_ok (s := { State.reset with build := b, req := q }) hdec).symm.trans hd
    refine ⟨d.z, ?_⟩
    rw [respondTo, hd]
    exact decodeBundle_encodeBundle hb (answerOf_ok_legal hb hanswer)

/-! ## The field ORD -/

/-- `sext_2(ORD)` is the sign that the Ordering names (rule R323). -/
theorem sext_orderCode_of_ordersAs {o : OrderRel} {z x : ℚ} (h : OrdersAs o z x) :
    (sext 2 (orderCode o) = 1 ↔ x < z) ∧ (sext 2 (orderCode o) = 0 ↔ z = x) ∧
      (sext 2 (orderCode o) = -1 ↔ z < x) ∧ orderCode o ≠ 2 := by
  cases o with
  | less =>
    have h : z < x := h
    exact ⟨iff_of_false (by decide) h.not_gt, iff_of_false (by decide) h.ne, iff_of_true (by decide) h, by decide⟩
  | equal =>
    have h : z = x := h
    exact ⟨iff_of_false (by decide) h.not_gt, iff_of_true (by decide) h, iff_of_false (by decide) h.not_lt,
      by decide⟩
  | greater =>
    have h : x < z := h
    exact ⟨iff_of_true (by decide) h, iff_of_false (by decide) h.ne', iff_of_false (by decide) h.not_gt, by decide⟩

/-- Settles O38: the response bundle decodes to the delivered Float, whose Ordering is the field ORD. -/
theorem orderFieldIsSignOfError : Obligations.OrderFieldIsSignOfError := by
  intro i s u x y z xv yv zv hb hxy hu hst hz hxv hyv hzv
  rw [exec_next_iff] at hu
  subst hu
  rw [respond_rsp] at hst hz ⊢
  obtain ⟨d, hd⟩ := statusOf_responseOf_eq_zero.1 hst
  obtain ⟨hp, x', y', hxy', hcore⟩ := answerOf_ok hd
  obtain rfl : x = x' := Option.some_inj.1 (hxy.1.symm.trans hxy'.1)
  obtain rfl : y = y' := Option.some_inj.1 (hxy.2.symm.trans hxy'.2)
  obtain ⟨ht, -⟩ := targetOf_range hb hp (decodeBundle_legal hb hxy.1) (decodeBundle_legal hb hxy.2)
  rw [hd, responseOf] at hz ⊢
  obtain rfl : d.z = z :=
    Option.some_inj.1 ((decodeBundle_encodeBundle hb (answerOf_ok_legal hb hd)).symm.trans hz)
  obtain ⟨-, hord, -⟩ := fields_okResponse s.build d
  rw [hord]
  exact sext_orderCode_of_ordersAs (addCore_ok_ordersAs ht hcore hxv hyv hzv)

end Machine
end Sys2Proof
end

section
/-! SUPPORT. Host scripts: what one line does, and that a script stops at the first response that is not OK (rule
R333). -/

namespace Sys2Proof.Machine

/-! ## One line -/

@[simp] theorem after_responses (q : Response) (rest : ScriptRun) :
    (rest.after q).responses = q :: rest.responses := rfl

@[simp] theorem after_ended (q : Response) (rest : ScriptRun) : (rest.after q).ended = rest.ended := rfl

theorem operandValue_variable_cons (vars : Variables) (t n : List Char) (z : Flt) :
    operandValue ((t, z) :: vars) (.variable n) =
      if n = t then some z else operandValue vars (.variable n) := by
  by_cases h : n = t
  · simp [operandValue, h]
  · simp [operandValue, h, Ne.symm h]

theorem runScript_unset {b : Build} {l : ScriptLine} {vars : Variables} (ls : List ScriptLine)
    (h : operandValue vars l.x = none ∨ operandValue vars l.y = none) :
    runScript b (l :: ls) vars = { vars := vars, responses := [], ended := .unsetVariable } := by
  unfold runScript
  rcases h with h | h
  · rw [h]
  · rw [h]
    cases operandValue vars l.x <;> rfl

theorem runScript_fault {b : Build} {l : ScriptLine} {vars : Variables} {x y : Flt} (ls : List ScriptLine)
    (hx : operandValue vars l.x = some x) (hy : operandValue vars l.y = some y)
    (h : statusOf (respondTo b (lineRequest b l.command x y)).word ≠ 0) :
    runScript b (l :: ls) vars =
      { vars := vars, responses := [respondTo b (lineRequest b l.command x y)]
        ended := .stopped (statusOf (respondTo b (lineRequest b l.command x y)).word) } := by
  rw [runScript, hx, hy]
  exact if_pos h

theorem runScript_ok {b : Build} {l : ScriptLine} {vars : Variables} {x y z : Flt} (ls : List ScriptLine)
    (hx : operandValue vars l.x = some x) (hy : operandValue vars l.y = some y)
    (h : statusOf (respondTo b (lineRequest b l.command x y)).word = 0)
    (hz : decodeBundle b (respondTo b (lineRequest b l.command x y)).z = some z) :
    runScript b (l :: ls) vars =
      (runScript b ls ((l.target, z) :: vars)).after (respondTo b (lineRequest b l.command x y)) := by
  rw [runScript, hx, hy]
  dsimp only
  rw [if_neg (not_not.2 h), hz]

/-- All that a line can do: it ends the script with at most one response, or has an OK response and goes on. -/
theorem runScript_cons_cases (b : Build) (l : ScriptLine) (ls : List ScriptLine) (vars : Variables) :
    ((runScript b (l :: ls) vars).responses.length ≤ 1 ∧ (runScript b (l :: ls) vars).ended ≠ .finished) ∨
    ∃ r z, statusOf r.word = 0 ∧ runScript b (l :: ls) vars = (runScript b ls ((l.target, z) :: vars)).after r := by
  cases hx : operandValue vars l.x with
  | none => simp [runScript_unset ls (.inl hx)]
  | some x =>
    cases hy : operandValue vars l.y with
    | none => simp [runScript_unset ls (.inr hy)]
    | some y =>
      by_cases hst : statusOf (respondTo b (lineRequest b l.command x y)).word = 0
      · cases hz : decodeBundle b (respondTo b (lineRequest b l.command x y)).z with
        | none => simp [runScript, hx, hy, hst, hz]
        | some z => exact .inr ⟨_, z, hst, runScript_ok ls hx hy hst hz⟩
      · simp [runScript_fault ls hx hy hst]

/-! ## A whole script -/

/-- A script has at most one response for each line, every response but the last is OK, and one that finishes has had an
OK response for every line. -/
theorem runScript_responses (b : Build) (ls : List ScriptLine) (vars : Variables) :
    let r := runScript b ls vars
    r.responses.length ≤ ls.length ∧
    (∀ k, k + 1 < r.responses.length → statusOf (r.responses.getD k default).word = 0) ∧
    (r.ended = .finished → r.responses.length = ls.length ∧ ∀ q ∈ r.responses, statusOf q.word = 0) := by
  induction ls generalizing vars with
  | nil => simp [runScript]
  | cons l ls ih =>
    intro r
    rcases runScript_cons_cases b l ls vars with ⟨hlen, hend⟩ | ⟨q, z, hq, hrun⟩
    · exact ⟨hlen.trans (by simp), fun k hk => absurd (hk.trans_le hlen) (by omega), fun h => absurd h hend⟩
    · obtain ⟨hlen, hok, hfin⟩ := ih ((l.target, z) :: vars)
      have hr : r = (runScript b ls ((l.target, z) :: vars)).after q := hrun
      rw [hr, after_responses, after_ended]
      refine ⟨Nat.succ_le_succ hlen, fun k hk => ?_, fun h => ?_⟩
      · cases k with
        | zero => exact hq
        | succ k => exact hok k (Nat.lt_of_succ_lt_succ hk)
      · obtain ⟨hall, hzero⟩ := hfin h
        exact ⟨congrArg (· + 1) hall, List.forall_mem_cons.2 ⟨hq, hzero⟩⟩

/-! ## The statement -/

/-- Settles O60: one line by its equations, with the bundle of an OK response decoding (`decodeBundle_respondTo`); a
whole script by induction on its lines. -/
theorem scriptStopsAtFirstFault : Obligations.ScriptStopsAtFirstFault := by
  refine ⟨fun vars v z t n => ⟨rfl, rfl, operandValue_variable_cons vars t n z⟩, fun _ _ => rfl, ?_,
    runScript_responses⟩
  intro b l ls vars
  refine ⟨runScript_unset ls, fun x y hx hy => ⟨runScript_fault ls hx hy, fun hb hst => ?_⟩⟩
  obtain ⟨z, hz⟩ := decodeBundle_respondTo hb hst
  exact ⟨z, hz, runScript_ok ls hx hy hst hz⟩

end Sys2Proof.Machine
end

section
/-! SUPPORT. The word adders and the increment as arithmetic on the numbers of their words (rules R405 to R407). -/

namespace Sys2Proof.Machine

/-! ## The adders -/

/-- Settles O11: sum and carry are the remainder and the quotient by `2^W` of a number below `2 * 2^W`. -/
theorem wordAdderIsExact : Obligations.WordAdderIsExact := by
  intro w a b c ha hb hc
  rw [adc_fst, adc_snd]
  exact ⟨Nat.mod_lt _ (Nat.two_pow_pos w), Nat.le_of_lt_succ ((Nat.div_lt_iff_lt_mul (Nat.two_pow_pos w)).2 (by omega)),
    Nat.mod_add_div' _ _⟩

theorem mwadd_length {w : Nat} {as bs : List Nat} (c : Nat) (h : as.length = bs.length) :
    (mwadd w as bs c).1.length = as.length := by
  induction as generalizing bs c with
  | nil => simp
  | cons a as ih =>
    cases bs with
    | nil => cases h
    | cons b bs =>
      rw [mwadd_cons]
      exact congrArg (· + 1) (ih _ (Nat.succ.inj h))

theorem mwadd_lt (w : Nat) (as bs : List Nat) (c : Nat) : ∀ a ∈ (mwadd w as bs c).1, a < 2 ^ w := by
  induction as generalizing bs c with
  | nil => simp
  | cons a as ih =>
    cases bs with
    | nil => simp
    | cons b bs =>
      rw [mwadd_cons]
      exact List.forall_mem_cons.2 ⟨Nat.mod_lt _ (Nat.two_pow_pos w), ih bs _⟩

/-- The sum words and the carry out of the top word make up the sum, with the carry in. -/
theorem mwadd_value {w : Nat} {as bs : List Nat} (c : Nat) (h : as.length = bs.length) :
    wordsValue w (mwadd w as bs c).1 + (mwadd w as bs c).2 * 2 ^ (w * as.length) =
      wordsValue w as + wordsValue w bs + c := by
  induction as generalizing bs c with
  | nil =>
    obtain rfl := List.eq_nil_of_length_eq_zero h.symm
    simp [wordsValue]
  | cons a as ih =>
    cases bs with
    | nil => cases h
    | cons b bs =>
      have hrest := ih ((a + b + c) / 2 ^ w) (Nat.succ.inj h)
      have hword := Nat.mod_add_div (a + b + c) (2 ^ w)
      rw [mwadd_cons, wordsValue, wordsValue, wordsValue, List.length_cons, Nat.mul_succ, Nat.pow_add]
      linear_combination 2 ^ w * hrest + hword

/-- Settles O12. The carry is at most 1 because the two numbers are below `2^(W*n)`. -/
theorem multiWordAdderIsExact : Obligations.MultiWordAdderIsExact := by
  intro w as bs hlen has hbs
  have hvalue := mwadd_value (w := w) 0 hlen
  have ha := wordsValue_lt w as has
  have hb := wordsValue_lt w bs hbs
  rw [← hlen] at hb
  refine ⟨mwadd_length 0 hlen, mwadd_lt w as bs 0, ?_, hvalue⟩
  by_contra hcarry
  have := Nat.mul_le_mul_right (2 ^ (w * as.length)) (show 2 ≤ (mwadd w as bs 0).2 by omega)
  omega

/-! ## Left-aligned significands (rules R112, R407) -/

/-- The words of `M << pad` denote it. -/
theorem wordsValue_leftAligned {w p t : Nat} (hw : 0 < w) (ht : t < 2 ^ p) :
    wordsValue w (toWords w (wordsFor w p) (t * 2 ^ padBits w p)) = t * 2 ^ padBits w p := by
  rw [wordsValue_toWords, Nat.mod_eq_of_lt (leftAligned_lt hw ht)]

/-- `2^(W*n)` is the number one above the largest left-aligned significand. -/
theorem two_pow_frame (p : Nat) {w : Nat} (hw : 0 < w) :
    2 ^ (w * wordsFor w p) = 2 ^ p * 2 ^ padBits w p := by
  rw [Nat.mul_comm w, wordsFor_mul w p hw, Nat.pow_add]

/-- Two left-aligned significands add up to the left-aligned sum, its carry counted. -/
theorem mwadd_leftAligned {w p a b : Nat} (hw : 0 < w) (ha : a < 2 ^ p) (hb : b < 2 ^ p) :
    let r := mwadd w (toWords w (wordsFor w p) (a * 2 ^ padBits w p)) (toWords w (wordsFor w p) (b * 2 ^ padBits w p)) 0
    wordsValue w r.1 + r.2 * 2 ^ (w * wordsFor w p) = (a + b) * 2 ^ padBits w p := by
  intro r
  have h := mwadd_value (w := w) (as := toWords w (wordsFor w p) (a * 2 ^ padBits w p))
    (bs := toWords w (wordsFor w p) (b * 2 ^ padBits w p)) 0 (by simp)
  rw [toWords_length, wordsValue_leftAligned hw ha, wordsValue_leftAligned hw hb] at h
  rw [h, Nat.add_zero, Nat.add_mul]

/-- The increment adds one unit in the last retained place, its carry counted. -/
theorem mwinc_leftAligned {w p t : Nat} (hw : 0 < w) (hp : 1 ≤ p) (ht : t < 2 ^ p) :
    let r := mwinc w (toWords w (wordsFor w p) (t * 2 ^ padBits w p)) (padBits w p)
    wordsValue w r.1 < 2 ^ p * 2 ^ padBits w p ∧
      wordsValue w r.1 + r.2 * (2 ^ p * 2 ^ padBits w p) = (t + 1) * 2 ^ padBits w p := by
  intro r
  have hr : r = mwadd w (toWords w (wordsFor w p) (t * 2 ^ padBits w p))
      (toWords w (wordsFor w p) (1 * 2 ^ padBits w p)) 0 := by
    rw [Nat.one_mul]
    simp only [r, mwinc, toWords_length]
  have hlt := wordsValue_lt w r.1 (hr ▸ mwadd_lt w _ _ 0)
  rw [hr, mwadd_length 0 (by simp), toWords_length, ← hr, two_pow_frame p hw] at hlt
  refine ⟨hlt, ?_⟩
  rw [← two_pow_frame p hw, hr]
  exact mwadd_leftAligned hw ht (Nat.one_lt_two_pow (by omega))

/-- Both outcomes of the increment: the all-ones significand carries out and leaves zero words, and any other becomes
the next one. -/
theorem mwinc_cases {w p t : Nat} (hw : 0 < w) (hp : 1 ≤ p) (ht : t < 2 ^ p) :
    let r := mwinc w (toWords w (wordsFor w p) (t * 2 ^ padBits w p)) (padBits w p)
    (t + 1 = 2 ^ p ∧ r.2 = 1 ∧ wordsValue w r.1 = 0) ∨
      (t + 1 < 2 ^ p ∧ r.2 = 0 ∧ wordsValue w r.1 = (t + 1) * 2 ^ padBits w p) := by
  intro r
  obtain ⟨hlt, hsum⟩ := mwinc_leftAligned hw hp ht
  change wordsValue w r.1 < _ at hlt
  change wordsValue w r.1 + r.2 * _ = _ at hsum
  have hpad := Nat.two_pow_pos (padBits w p)
  have hframe : 0 < 2 ^ p * 2 ^ padBits w p := Nat.mul_pos (Nat.two_pow_pos p) hpad
  rcases Nat.lt_or_ge (t + 1) (2 ^ p) with hlow | hones
  · have hfits : (t + 1) * 2 ^ padBits w p < 2 ^ p * 2 ^ padBits w p := Nat.mul_lt_mul_of_pos_right hlow hpad
    have hcarry : r.2 = 0 := by
      by_contra hc
      have := Nat.le_mul_of_pos_left (2 ^ p * 2 ^ padBits w p) (Nat.pos_of_ne_zero hc)
      omega
    rw [hcarry, Nat.zero_mul, Nat.add_zero] at hsum
    exact .inr ⟨hlow, hcarry, hsum⟩
  · obtain hall : t + 1 = 2 ^ p := by omega
    rw [hall] at hsum
    have hcarry : r.2 = 1 := by
      have hlow : r.2 < 2 := by
        by_contra hc
        have := Nat.mul_le_mul_right (2 ^ p * 2 ^ padBits w p) (show 2 ≤ r.2 by omega)
        omega
      have hne : r.2 ≠ 0 := fun hc => by
        rw [hc] at hsum
        omega
      omega
    rw [hcarry, Nat.one_mul] at hsum
    exact .inl ⟨hall, hcarry, by omega⟩

/-- Settles O13, from the two outcomes of the increment. -/
theorem incrementCarriesOnAllOnes : Obligations.IncrementCarriesOnAllOnes := by
  intro w p t hw hp ht words
  rcases mwinc_cases hw hp ht with ⟨hall, hcarry, hzero⟩ | ⟨hlow, hcarry, hnext⟩
  · exact ⟨iff_of_true hcarry (by omega), fun _ => hzero, fun h => absurd (hcarry.symm.trans h) (by omega)⟩
  · exact ⟨iff_of_false (hcarry.trans_ne (by omega)) (by omega), fun h => absurd (hcarry.symm.trans h) (by omega),
      fun _ => hnext⟩

end Sys2Proof.Machine
end

section
/-! SUPPORT. Cutting a fixed number of bits off a number. The cut to a precision (rule R430), the alignment shifter
(rule R410) and the post-normalization (rule R443) are all such cuts. -/

namespace Sys2Proof.Machine

/-- `n` without its low `d` bits; the round and sticky bits compare what is discarded with half a unit in the last
retained place. -/
def cutAt (n d : Nat) : Cut :=
  { t := n / 2 ^ d
    r := decide (2 ^ d ≤ 2 * (n % 2 ^ d))
    st := decide (n % 2 ^ d ≠ 0 ∧ 2 * (n % 2 ^ d) ≠ 2 ^ d) }

@[simp] theorem cutAt_t (n d : Nat) : (cutAt n d).t = n / 2 ^ d := rfl

theorem cutAt_r_iff (n d : Nat) : (cutAt n d).r = true ↔ 2 ^ d ≤ 2 * (n % 2 ^ d) := decide_eq_true_iff

theorem cutAt_st_iff (n d : Nat) : (cutAt n d).st = true ↔ n % 2 ^ d ≠ 0 ∧ 2 * (n % 2 ^ d) ≠ 2 ^ d := decide_eq_true_iff

@[simp] theorem cutAt_zero (n : Nat) : cutAt n 0 = { t := n, r := false, st := false } := by
  simp [cutAt, Nat.mod_one]

/-- The round bit is the most significant discarded bit, the sticky bit the OR of the others. -/
theorem cutAt_succ (n d : Nat) :
    cutAt n (d + 1) = { t := n / 2 ^ (d + 1), r := bitAt n d, st := decide (n % 2 ^ d ≠ 0) } := by
  have hsplit : n % 2 ^ (d + 1) = n % 2 ^ d + 2 ^ d * (n / 2 ^ d % 2) := by rw [Nat.pow_succ, Nat.mod_mul]
  have hlt : n % 2 ^ d < 2 ^ d := Nat.mod_lt _ (Nat.two_pow_pos d)
  rw [cutAt, Cut.mk.injEq]
  refine ⟨rfl, ?_, ?_⟩ <;> rw [Bool.eq_iff_iff, decide_eq_true_iff, hsplit, Nat.pow_succ]
  · rw [bitAt_iff]
    rcases Nat.mod_two_eq_zero_or_one (n / 2 ^ d) with hbit | hbit <;> rw [hbit] <;> omega
  · rw [decide_eq_true_iff]
    rcases Nat.mod_two_eq_zero_or_one (n / 2 ^ d) with hbit | hbit <;> rw [hbit] <;> omega

theorem cutAt_of_pos {d : Nat} (n : Nat) (hd : 1 ≤ d) :
    cutAt n d = { t := n / 2 ^ d, r := bitAt n (d - 1), st := decide (n % 2 ^ (d - 1) ≠ 0) } := by
  obtain ⟨k, rfl⟩ := Nat.exists_eq_add_of_le' hd
  exact cutAt_succ n k

/-- Zeros at the bottom are discarded without a trace. -/
theorem cutAt_mul_two_pow (n k d : Nat) : cutAt (n * 2 ^ k) (d + k) = cutAt n d := by
  have hk := Nat.two_pow_pos k
  have hdiv : n * 2 ^ k / (2 ^ d * 2 ^ k) = n / 2 ^ d := Nat.mul_div_mul_right _ _ hk
  have hmod : n * 2 ^ k % (2 ^ d * 2 ^ k) = n % 2 ^ d * 2 ^ k := Nat.mul_mod_mul_right _ _ _
  have hround : 2 ^ d * 2 ^ k ≤ 2 * (n % 2 ^ d * 2 ^ k) ↔ 2 ^ d ≤ 2 * (n % 2 ^ d) := by
    rw [← Nat.mul_assoc, Nat.mul_le_mul_right_iff hk]
  have hhalf : 2 * (n % 2 ^ d * 2 ^ k) = 2 ^ d * 2 ^ k ↔ 2 * (n % 2 ^ d) = 2 ^ d := by
    rw [← Nat.mul_assoc, Nat.mul_left_inj hk.ne']
  have hzero : n % 2 ^ d * 2 ^ k = 0 ↔ n % 2 ^ d = 0 := by simp
  simp only [cutAt, Nat.pow_add, hdiv, hmod, hround, ne_eq, hhalf, hzero]

/-- Units above the cut are retained as they are. -/
theorem cutAt_mul_two_pow_add (a n d : Nat) :
    cutAt (a * 2 ^ d + n) d = { t := a + (cutAt n d).t, r := (cutAt n d).r, st := (cutAt n d).st } := by
  have hdiv : (a * 2 ^ d + n) / 2 ^ d = a + n / 2 ^ d := by
    rw [Nat.add_comm, Nat.add_mul_div_right _ _ (Nat.two_pow_pos d), Nat.add_comm]
  simp only [cutAt, hdiv, Nat.mul_add_mod_self_right]

/-- One more bit cut off: the last retained bit becomes the round bit, the old round and sticky bits go to sticky. -/
theorem cutAt_succ_of_cutAt (n d : Nat) :
    cutAt n (d + 1) =
      { t := (cutAt n d).t / 2, r := bitAt (cutAt n d).t 0, st := (cutAt n d).r || (cutAt n d).st } := by
  have hsticky : decide (n % 2 ^ d ≠ 0) = ((cutAt n d).r || (cutAt n d).st) := by
    have hpos := Nat.two_pow_pos d
    rw [Bool.eq_iff_iff, Bool.or_eq_true, cutAt_r_iff, cutAt_st_iff, decide_eq_true_iff]
    omega
  rw [cutAt_succ, hsticky, cutAt_t, Nat.pow_succ, Nat.div_div_eq_div_mul, bitAt, bitAt, Nat.pow_zero, Nat.div_one]

/-- A tail below the round bit shows in the sticky bit alone. -/
theorem cutAt_of_tail {r g k : Nat} (a : Nat) (hr : 0 < r) (hrg : r < 2 ^ g) (hk : 1 ≤ k) :
    cutAt (a * 2 ^ g + r) (k + g) = { t := a / 2 ^ k, r := bitAt a (k - 1), st := true } := by
  have hdrop : (a * 2 ^ g + r) / 2 ^ g = a := by
    rw [Nat.add_comm, Nat.add_mul_div_right _ _ (Nat.two_pow_pos g), Nat.div_eq_of_lt hrg, Nat.zero_add]
  have hshift : ∀ j, (a * 2 ^ g + r) / 2 ^ (j + g) = a / 2 ^ j := fun j => by
    rw [Nat.add_comm j, Nat.pow_add, ← Nat.div_div_eq_div_mul, hdrop]
  have hpred : k + g - 1 = k - 1 + g := by omega
  have htail : (a * 2 ^ g + r) % 2 ^ (k - 1 + g) ≠ 0 := fun h => by
    have hmod := Nat.mod_mod_of_dvd (a * 2 ^ g + r) (Nat.pow_dvd_pow 2 (Nat.le_add_left g (k - 1)))
    rw [h, Nat.zero_mod, Nat.mul_add_mod_self_right, Nat.mod_eq_of_lt hrg] at hmod
    omega
  rw [cutAt_of_pos _ (by omega), hpred, decide_eq_true htail, bitAt, bitAt, hshift, hshift]

/-! ## The cut to a precision (rule R430) -/

/-- The cut to `p` bits cuts off the bits above `p`, of a number first filled with zeros if it has fewer. -/
theorem cutTo_eq_cutAt (n p : Nat) : cutTo n p = cutAt (n * 2 ^ (p - bitlen n)) (bitlen n - p) := by
  rcases le_or_gt (bitlen n) p with hf | hf
  · rw [cutTo_of_fits hf, Nat.sub_eq_zero_of_le hf, cutAt_zero]
  · rw [cutTo_of_exceeds hf, Nat.sub_eq_zero_of_le hf.le, Nat.pow_zero, Nat.mul_one, cutAt_of_pos _ (by omega)]

/-- A number of `p + d` bits is cut to `p` bits by cutting off `d`. -/
theorem cutTo_of_bitlen {n p d : Nat} (h : bitlen n = p + d) : cutTo n p = cutAt n d := by
  rw [cutTo_eq_cutAt, h, Nat.add_sub_cancel_left, Nat.sub_eq_zero_of_le (Nat.le_add_right p d),
    Nat.pow_zero, Nat.mul_one]

theorem bitlen_mul_two_pow_add {a r g : Nat} (ha : 0 < a) (hr : r < 2 ^ g) : bitlen (a * 2 ^ g + r) = bitlen a + g := by
  obtain ⟨h1, h2⟩ := bitlen_bounds ha
  have hlen : bitlen a + g = bitlen a - 1 + g + 1 := by
    have := bitlen_pos ha
    omega
  rw [hlen]
  refine bitlen_eq_of_bounds ?_ ?_
  · rw [Nat.pow_add]
    exact (Nat.mul_le_mul_right _ h1).trans (Nat.le_add_right _ _)
  · rw [← hlen, Nat.pow_add]
    calc a * 2 ^ g + r < a * 2 ^ g + 2 ^ g := Nat.add_lt_add_left hr _
      _ = (a + 1) * 2 ^ g := (Nat.succ_mul a _).symm
      _ ≤ 2 ^ bitlen a * 2 ^ g := Nat.mul_le_mul_right _ h2

/-- The bit length of a significand of `p` bits. -/
theorem bitlen_of_significand {m p : Nat} (hp : 1 ≤ p) (h1 : 2 ^ (p - 1) ≤ m) (h2 : m < 2 ^ p) : bitlen m = p := by
  have hlen : p - 1 + 1 = p := by omega
  rw [bitlen_eq_of_bounds h1 (by rwa [hlen]), hlen]

/-! ## The alignment shifter (rule R410) -/

/-- The alignment shifter cuts off `d` bits; beyond `d = p` that leaves the sticky bit alone. -/
theorem align_eq_cutAt {m p : Nat} (d : Nat) (h1 : 0 < m) (h2 : m < 2 ^ p) : align m p d = cutAt m d := by
  rcases Nat.eq_zero_or_pos d with rfl | hd
  · rw [align_zero, cutAt_zero]
  · rcases Nat.lt_or_ge p d with hp | hp
    · have hlow : m < 2 ^ (d - 1) := h2.trans_le (Nat.pow_le_pow_right (by omega) (by omega))
      have hlow' : m < 2 ^ d := hlow.trans_le (Nat.pow_le_pow_right (by omega) (by omega))
      rw [align_of_gt hp, cutAt_of_pos _ hd, Nat.div_eq_of_lt hlow', bitAt, Nat.div_eq_of_lt hlow,
        Nat.mod_eq_of_lt hlow, decide_eq_true h1.ne']
      rfl
    · rw [align_of_le hd hp, cutAt_of_pos _ hd]

/-- Settles O14: the shifter is a cut (`align_eq_cutAt`), whose round bit compares with half of `2^d`. -/
theorem alignKeepsRoundAndSticky : Obligations.AlignKeepsRoundAndSticky := by
  intro m p d hp h1 h2
  have hpos : 0 < m := (Nat.two_pow_pos _).trans_le h1
  refine ⟨fun hd => hd ▸ align_zero m p, fun hd _ => ?_, align_of_gt⟩
  have hhalf : 2 ^ d = 2 * 2 ^ (d - 1) := by rw [← Nat.pow_succ', Nat.succ_eq_add_one, Nat.sub_add_cancel hd]
  rw [align_eq_cutAt d hpos h2, cutAt_t, cutAt_r_iff, cutAt_st_iff]
  refine ⟨rfl, ?_, ?_⟩ <;> omega

end Sys2Proof.Machine
end

section
/-! SUPPORT. What the rounding engine decides, and which roundings fail (rules R420 to R427, R433). -/

namespace Sys2Proof.Machine

/-! ## The rounding engine -/

/-- Unless EXACT meets discarded bits, the engine decides. -/
theorem reng_of_delivers (lsb : Bool) {r st : Bool} (s : Bool) {m : RoundMode}
    (h : m = .exact → inexactOf r st = false) :
    reng lsb r st s m = .ok (incrementOf lsb r st s m, orderOf r st s (incrementOf lsb r st s m)) :=
  if_neg fun hm => by simp [h hm.1] at hm

theorem reng_exact_of_inexact (lsb : Bool) {r st : Bool} (s : Bool) (h : inexactOf r st = true) :
    reng lsb r st s .exact = .error .inexact := if_pos ⟨rfl, h⟩

theorem orderOf_of_exact {r st : Bool} (s inc : Bool) (h : inexactOf r st = false) : orderOf r st s inc = .equal :=
  if_pos h

theorem orderOf_of_inexact {r st : Bool} (s inc : Bool) (h : inexactOf r st = true) :
    orderOf r st s inc = if inc = !s then .greater else .less := if_neg (by simp [h])

/-- Settles O15: EXACT by whether anything is discarded, the other modes by their decisions. -/
theorem roundingEngineDecisions : Obligations.RoundingEngineDecisions := by
  intro lsb r st s
  refine ⟨?_, fun m hm => ⟨_, _, reng_of_delivers lsb s (absurd · hm), ?_, ?_, ?_, ?_, ?_, ?_, ?_, ?_⟩⟩
  · cases h : r || st with
    | true => exact reng_exact_of_inexact lsb s h
    | false => exact (reng_of_delivers lsb s fun _ => h).trans (by rw [orderOf_of_exact s _ h]; rfl)
  · rintro rfl; rfl
  · rintro rfl; rfl
  · rintro rfl; rfl
  · rintro rfl; rfl
  · rintro rfl; rfl
  · exact orderOf_of_exact s _
  · intro h hinc
    rw [orderOf_of_inexact s _ h, if_pos hinc]
  · intro h hinc
    rw [orderOf_of_inexact s _ h, if_neg (by simp [hinc])]

/-! ## The last part of a rounding -/

theorem roundCut_of_reng {c : Cut} {s : Bool} {m : RoundMode} {inc : Bool} {ord : OrderRel} (emax e : Int) (p : Nat)
    (h : reng (c.t % 2 == 1) c.r c.st s m = .ok (inc, ord)) :
    roundCut emax c e s p m =
      if emax < (increment inc c.t e p).2 then .error .expOverflow
      else .ok
        { z := .fin s (increment inc c.t e p).2 p (increment inc c.t e p).1
          ord := ord, rb := c.r, sb := c.st, inc := inc } := by
  rw [roundCut, h]

theorem roundCut_exact_of_inexact {c : Cut} (emax e : Int) (s : Bool) (p : Nat) (h : inexactOf c.r c.st = true) :
    roundCut emax c e s p .exact = .error .inexact := by
  rw [roundCut, reng_exact_of_inexact _ s h]

/-- When nothing is discarded, every mode delivers the cut as it is. -/
theorem roundCut_of_exact {emax e : Int} {c : Cut} (s : Bool) (p : Nat) (m : RoundMode)
    (h : inexactOf c.r c.st = false) (he : e ≤ emax) :
    roundCut emax c e s p m = .ok { z := .fin s e p c.t, ord := .equal, rb := false, sb := false, inc := false } := by
  obtain ⟨hr, hst⟩ := Bool.or_eq_false_iff.1 h
  rw [roundCut_of_reng emax e p (reng_of_delivers _ s fun _ => h), incrementOf_of_exact _ _ _ h,
    orderOf_of_exact s false h, hr, hst, increment, if_pos rfl, if_neg (not_lt.2 he)]

/-- Settles O22: the bound has no part in the rounding but the last comparison. -/
theorem overflowIffExponentExceedsBound : Obligations.OverflowIffExponentExceedsBound := by
  intro emax n q s p m
  constructor
  · intro h
    rcases roundCut_error h with ⟨hf, -⟩ | ⟨-, inc, ord, hreng, hover⟩
    · cases hf
    · exact ⟨_, _, _, _, (roundCut_of_reng _ _ p hreng).trans (if_neg (lt_irrefl _)), rfl, hover⟩
  · rintro ⟨bound, r, e, t, hr, hz, hover⟩
    obtain ⟨hreng, hfin, -, -, -⟩ := roundCut_ok hr
    obtain ⟨-, rfl, -⟩ := Flt.fin.inj (hz.symm.trans hfin)
    exact (roundCut_of_reng _ _ p hreng).trans (if_pos hover)

end Sys2Proof.Machine
end

section
/-! SUPPORT. The cut to a precision and its successor are the representable neighbours of the exact value, and a
rounding delivers one of them (rules R324, R430, R434). -/

namespace Sys2Proof

theorem scaled_pos {n : Nat} (q : Int) (hn : 0 < n) : 0 < scaled n q :=
  mul_pos (Nat.cast_pos.2 hn) (zpow_pos (by norm_num) q)

theorem scaled_one (q : Int) : scaled 1 q = 2 ^ q := by rw [scaled, Nat.cast_one, one_mul]

theorem scaled_le_scaled {m n : Nat} {q : Int} : scaled m q ≤ scaled n q ↔ m ≤ n := by
  rw [← not_lt, scaled_lt_scaled, not_lt]

theorem Representable.pos {p : Nat} {x : ℚ} (h : Representable p x) : 0 < x := by
  obtain ⟨m, k, hm, -, rfl⟩ := h
  exact scaled_pos k ((Nat.two_pow_pos _).trans_le hm)

theorem representable_scaled {p t : Nat} (k : Int) (h1 : 2 ^ (p - 1) ≤ t) (h2 : t < 2 ^ p) :
    Representable p (scaled t k) := ⟨t, k, h1, h2, rfl⟩

/-- The number one unit above a significand is representable, at the next exponent if need be. -/
theorem representable_scaled_succ {p t : Nat} (k : Int) (hp : 1 ≤ p) (h1 : 2 ^ (p - 1) ≤ t) (h2 : t < 2 ^ p) :
    Representable p (scaled (t + 1) k) := by
  rcases Nat.lt_or_ge (t + 1) (2 ^ p) with hlow | hones
  · exact representable_scaled k (by omega) hlow
  · have hall : t + 1 = 2 ^ (p - 1) * 2 ^ 1 := by
      rw [← Nat.pow_add, Nat.sub_add_cancel hp]
      omega
    rw [hall, scaled_mul_two_pow]
    exact representable_scaled _ le_rfl (Nat.pow_lt_pow_right (by omega) (by omega))

/-- No representable number lies between a significand and the next one. -/
theorem Representable.le_or_succ_le {p t : Nat} {k : Int} {y : ℚ} (hp : 1 ≤ p) (h1 : 2 ^ (p - 1) ≤ t)
    (hy : Representable p y) : y ≤ scaled t k ∨ scaled (t + 1) k ≤ y := by
  obtain ⟨m, j, -, hm, rfl⟩ := hy
  rcases le_or_gt k j with hkj | hjk
  · obtain ⟨d, rfl⟩ := Int.le.dest hkj
    rw [← scaled_mul_two_pow, scaled_le_scaled, scaled_le_scaled]
    omega
  · obtain ⟨d, hd⟩ := Int.le.dest (Int.add_one_le_of_lt hjk)
    have hk : k = j + ((1 + d : Nat) : Int) := by omega
    left
    rw [hk, ← scaled_mul_two_pow, scaled_le_scaled]
    calc m ≤ 2 ^ p := hm.le
      _ = 2 ^ (p - 1) * 2 ^ 1 := by rw [← Nat.pow_add, Nat.sub_add_cancel hp]
      _ ≤ t * 2 ^ (1 + d) := Nat.mul_le_mul h1 (Nat.pow_le_pow_right (by omega) (by omega))

/-! ## Both signs (rule R434) -/

/-- Below a positive bound, numbers of either sign have no greater element than the magnitudes have. -/
theorem isGreatest_signed_of_pos {p : Nat} {x z : ℚ} (h : IsGreatest {y | Representable p y ∧ y ≤ x} z) :
    IsGreatest {y | Representable p |y| ∧ y ≤ x} z := by
  obtain ⟨⟨hz, hzx⟩, hmax⟩ := h
  refine ⟨⟨(abs_of_pos hz.pos).symm ▸ hz, hzx⟩, fun y ⟨hy, hyx⟩ => ?_⟩
  rcases le_or_gt y 0 with hneg | hpos
  · exact hneg.trans hz.pos.le
  · exact hmax ⟨abs_of_pos hpos ▸ hy, hyx⟩

/-- Above a positive bound there are the magnitudes alone. -/
theorem isLeast_signed_of_pos {p : Nat} {x z : ℚ} (hx : 0 < x) (h : IsLeast {y | Representable p y ∧ x ≤ y} z) :
    IsLeast {y | Representable p |y| ∧ x ≤ y} z := by
  obtain ⟨⟨hz, hxz⟩, hmin⟩ := h
  exact ⟨⟨(abs_of_pos hz.pos).symm ▸ hz, hxz⟩, fun y ⟨hy, hxy⟩ => hmin ⟨abs_of_pos (hx.trans_le hxy) ▸ hy, hxy⟩⟩

theorem isGreatest_signed_neg {p : Nat} {x z : ℚ} (h : IsLeast {y | Representable p |y| ∧ x ≤ y} z) :
    IsGreatest {y | Representable p |y| ∧ y ≤ -x} (-z) := by
  obtain ⟨⟨hz, hxz⟩, hmin⟩ := h
  exact ⟨⟨(abs_neg z).symm ▸ hz, neg_le_neg hxz⟩, fun y ⟨hy, hyx⟩ =>
    le_neg.1 (hmin ⟨(abs_neg y).symm ▸ hy, le_neg.1 hyx⟩)⟩

theorem isLeast_signed_neg {p : Nat} {x z : ℚ} (h : IsGreatest {y | Representable p |y| ∧ y ≤ x} z) :
    IsLeast {y | Representable p |y| ∧ -x ≤ y} (-z) := by
  obtain ⟨⟨hz, hzx⟩, hmax⟩ := h
  exact ⟨⟨(abs_neg z).symm ▸ hz, neg_le_neg hzx⟩, fun y ⟨hy, hxy⟩ =>
    neg_le.1 (hmax ⟨(abs_neg y).symm ▸ hy, neg_le.1 hxy⟩)⟩

namespace Machine

/-! ## The neighbours of the exact value -/

theorem isGreatest_cutTo {n p : Nat} (q : Int) (hn : 0 < n) (hp : 1 ≤ p) :
    IsGreatest {y | Representable p y ∧ y ≤ scaled n q} (scaled (cutTo n p).t (q + bitlen n - p)) := by
  obtain ⟨h1, h2⟩ := cutTo_range hn hp
  obtain ⟨hlow, hhigh, -⟩ := cutTo_bracket n p q
  exact ⟨⟨representable_scaled _ h1 h2, hlow⟩, fun y ⟨hy, hyx⟩ =>
    (hy.le_or_succ_le hp h1).resolve_right (hyx.trans_lt hhigh).not_ge⟩

/-- The least representable magnitude not below an exact value: the cut if nothing is discarded, else its successor. -/
theorem isLeast_cutTo {n p : Nat} (q : Int) (hn : 0 < n) (hp : 1 ≤ p) :
    IsLeast {y | Representable p y ∧ scaled n q ≤ y}
      (scaled ((cutTo n p).t + (inexactOf (cutTo n p).r (cutTo n p).st).toNat) (q + bitlen n - p)) := by
  obtain ⟨h1, h2⟩ := cutTo_range hn hp
  obtain ⟨hlow, hhigh, hmeet⟩ := cutTo_bracket n p q
  cases hi : inexactOf (cutTo n p).r (cutTo n p).st with
  | false =>
    have heq := hmeet.2 hi
    exact ⟨⟨representable_scaled _ h1 h2, heq.ge⟩, fun y ⟨_, hy⟩ => heq.trans_le hy⟩
  | true =>
    have hlt : scaled (cutTo n p).t (q + bitlen n - p) < scaled n q :=
      lt_of_le_of_ne hlow fun heq => by simp [hmeet.1 heq] at hi
    exact ⟨⟨representable_scaled_succ _ hp h1 h2, hhigh.le⟩, fun y ⟨hy, hxy⟩ =>
      (hy.le_or_succ_le hp h1).resolve_left (hlt.trans_le hxy).not_ge⟩

/-- What is above the multiple of a unit is compared with half a unit by the round and sticky bits. -/
theorem cutTo_flags_iff {n p : Nat} {q : Int} {f : ℚ}
    (hf : f = scaled n q - scaled (cutTo n p).t (q + bitlen n - p)) :
    ((cutTo n p).r = true ↔ 2 ^ (q + bitlen n - p) / 2 ≤ f) ∧
      ((cutTo n p).st = true ↔ f ≠ 0 ∧ f ≠ 2 ^ (q + bitlen n - p) / 2) := by
  have hsum := scaled_cutTo n p q
  have hfd : f = scaled (n % 2 ^ (bitlen n - p)) q := by linarith
  rcases le_or_gt (bitlen n) p with hfit | hlong
  · have hhalf : (0 : ℚ) < 2 ^ (q + bitlen n - p) / 2 := by positivity
    rw [Nat.sub_eq_zero_of_le hfit, Nat.pow_zero, Nat.mod_one, scaled_zero] at hfd
    rw [cutTo_of_fits hfit, hfd]
    exact ⟨iff_of_false (by simp) hhalf.not_ge, iff_of_false (by simp) (by simp)⟩
  · have hlen : bitlen n = p + (bitlen n - p) := by omega
    have hunit : (2 : ℚ) ^ (q + bitlen n - p) = scaled (2 ^ (bitlen n - p)) q := by
      have hq : q + bitlen n - p = q + ((bitlen n - p : Nat) : Int) := by omega
      rw [hq, ← scaled_one, ← scaled_mul_two_pow, one_mul]
    have hdouble : scaled (2 * (n % 2 ^ (bitlen n - p))) q = 2 * f := by rw [hfd, two_mul, scaled_add, two_mul]
    have hzero : f = 0 ↔ n % 2 ^ (bitlen n - p) = 0 := by rw [hfd, ← scaled_zero q, scaled_inj]
    have heq : 2 * (n % 2 ^ (bitlen n - p)) = 2 ^ (bitlen n - p) ↔ f = 2 ^ (q + bitlen n - p) / 2 := by
      rw [← scaled_inj (q := q), hdouble, hunit]
      constructor <;> intro h <;> linarith
    rw [cutTo_of_bitlen hlen, cutAt_r_iff, cutAt_st_iff, ← scaled_le_scaled (q := q), hdouble, ← hunit, ne_eq, ne_eq,
      ne_eq, ne_eq, hzero, heq]
    exact ⟨by constructor <;> intro h <;> linarith, Iff.rfl⟩

/-! ## What a rounding delivers -/

/-- A rounding that delivers: the engine's decision, and the cut or its successor as the delivered magnitude. -/
theorem roundSOR_ok_value {emax : Int} {n : Nat} {q : Int} {s : Bool} {p : Nat} {m : RoundMode} {r : Rounded}
    (hn : 0 < n) (hp : 1 ≤ p) (h : roundSOR emax n q s p m = .ok r) :
    r.inc = incrementOf ((cutTo n p).t % 2 == 1) (cutTo n p).r (cutTo n p).st s m ∧
    ∃ e t, r.z = .fin s e p t ∧ 2 ^ (p - 1) ≤ t ∧ t < 2 ^ p ∧ e ≤ emax ∧
      scaled t (e - p + 1) = scaled ((cutTo n p).t + r.inc.toNat) (q + bitlen n - p) := by
  obtain ⟨hreng, hz, he, -, -⟩ := roundCut_ok h
  obtain ⟨h1, h2⟩ := cutTo_range hn hp
  obtain ⟨h3, h4, -, -⟩ := increment_range (inc := r.inc) (e := q + bitlen n - 1) hp h1 h2
  refine ⟨(reng_ok hreng).2.1, _, _, hz, h3, h4, he, ?_⟩
  rw [scaled_increment _ hp]
  congr 1
  omega

/-- The delivered number, with its sign. -/
theorem roundSOR_ok_toRat {emax : Int} {n : Nat} {q : Int} {s : Bool} {p : Nat} {m : RoundMode} {r : Rounded}
    (hn : 0 < n) (hp : 1 ≤ p) (h : roundSOR emax n q s p m = .ok r) :
    r.z.toRat = some (signed s (scaled ((cutTo n p).t + r.inc.toNat) (q + bitlen n - p))) := by
  obtain ⟨-, e, t, hz, -, -, -, hvalue⟩ := roundSOR_ok_value hn hp h
  rw [hz, Flt.toRat, hvalue]

/-- Settles O16: TRUNC never increments, and AWAY increments exactly when something is discarded. -/
theorem truncAndAwayBracketTheExactValue : Obligations.TruncAndAwayBracketTheExactValue := by
  intro emax n q s p r hn hp
  refine ⟨fun h => ?_, fun h => ?_⟩
  · obtain ⟨hinc, e, t, hz, -, -, -, hvalue⟩ := roundSOR_ok_value hn hp h
    rw [hinc] at hvalue
    exact ⟨e, t, hz, hvalue ▸ isGreatest_cutTo q hn hp⟩
  · obtain ⟨hinc, e, t, hz, -, -, -, hvalue⟩ := roundSOR_ok_value hn hp h
    rw [hinc] at hvalue
    exact ⟨e, t, hz, hvalue ▸ isLeast_cutTo q hn hp⟩

/-- Settles O17: FLOOR rounds a positive number as TRUNC and a negative one as AWAY, CEIL the other way round. -/
theorem floorAndCeilAreDirected : Obligations.FloorAndCeilAreDirected := by
  intro emax n q s p r hn hp
  have hx := scaled_pos q hn
  have hdown := isGreatest_signed_of_pos (isGreatest_cutTo q hn hp)
  have hup := isLeast_signed_of_pos hx (isLeast_cutTo q hn hp)
  refine ⟨fun h => ⟨_, roundSOR_ok_toRat hn hp h, ?_⟩, fun h => ⟨_, roundSOR_ok_toRat hn hp h, ?_⟩⟩
  · rw [(roundSOR_ok_value hn hp h).1, incrementOf]
    cases s with
    | false => simpa [signed] using hdown
    | true => simpa [signed] using isGreatest_signed_neg hup
  · rw [(roundSOR_ok_value hn hp h).1, incrementOf]
    cases s with
    | false => simpa [signed] using hup
    | true => simpa [signed] using isLeast_signed_neg hdown

/-- Settles O19: EXACT fails exactly when the cut discards something, and otherwise delivers the cut. -/
theorem exactModeSucceedsIffRepresentable : Obligations.ExactModeSucceedsIffRepresentable := by
  intro emax n q s p hn hp
  rw [representable_iff_cut_exact q hn hp]
  refine ⟨⟨fun h => ?_, fun h => ?_⟩, fun h he => ⟨_, roundCut_of_exact s p .exact h he⟩, fun r h => ?_⟩
  · rcases roundCut_error h with ⟨-, -, hdiscard⟩ | ⟨hf, -⟩
    · rw [inexactOf, hdiscard]
      exact Bool.true_eq_false_eq_False
    · cases hf
  · exact roundCut_exact_of_inexact _ _ s p (Bool.not_eq_false _ ▸ h)
  · obtain ⟨hreng, -, -, -, -⟩ := roundCut_ok h
    obtain ⟨hexact, hinc, hord⟩ := reng_ok hreng
    obtain ⟨-, e, t, hz, -, -, -, hvalue⟩ := roundSOR_ok_value hn hp h
    have hnone := hexact rfl
    have hinc : r.inc = false := hinc
    rw [hinc] at hvalue
    exact ⟨e, t, hz, hvalue.trans ((cutTo_bracket n p q).2.2.2 hnone), hord.trans (orderOf_of_exact s _ hnone), hinc⟩

/-- The greatest multiple of a unit not above the exact value is the cut. -/
theorem floor_div_unit_mul_unit (n p : Nat) (q : Int) :
    ⌊scaled n q / 2 ^ (q + bitlen n - p)⌋ * (2 : ℚ) ^ (q + bitlen n - p) =
      scaled (cutTo n p).t (q + bitlen n - p) := by
  obtain ⟨hlow, hhigh, -⟩ := cutTo_bracket n p q
  have hu : (0 : ℚ) < 2 ^ (q + bitlen n - p) := by positivity
  have hfloor : ⌊scaled n q / 2 ^ (q + bitlen n - p)⌋ = ((cutTo n p).t : Int) := by
    rw [Int.floor_eq_iff, le_div_iff₀ hu, div_lt_iff₀ hu]
    exact ⟨hlow, by simpa [scaled] using hhigh⟩
  rw [hfloor, scaled, Int.cast_natCast]

/-- Settles O20: the delivered magnitude is the cut or its successor, and nothing is incremented unless something is
discarded. -/
theorem roundingErrorBelowOneUlp : Obligations.RoundingErrorBelowOneUlp := by
  intro emax n q s p m r hn hp h x u f
  have hunit : q + bitlen n - 1 - p + 1 = q + bitlen n - p := by omega
  have hu : u = 2 ^ (q + bitlen n - p) := congrArg ((2 : ℚ) ^ ·) hunit
  have hf : f = x - scaled (cutTo n p).t (q + bitlen n - p) := by
    rw [← floor_div_unit_mul_unit, ← hu]
  obtain ⟨-, -, -, hrb, hsb⟩ := roundCut_ok h
  obtain ⟨hr, hst⟩ := cutTo_flags_iff hf
  obtain ⟨hlow, hhigh, hmeet⟩ := cutTo_bracket n p q
  obtain ⟨hinc, e, t, hz, h1, h2, he, hvalue⟩ := roundSOR_ok_value hn hp h
  rw [← hu, ← hrb] at hr
  rw [← hu, ← hsb] at hst
  refine ⟨e, t, hz, h1, h2, he, ?_, hr, hst, ?_⟩ <;> rw [hvalue]
  · have hnext : scaled ((cutTo n p).t + 1) (q + bitlen n - p) = scaled (cutTo n p).t (q + bitlen n - p) + u := by
      rw [scaled_add, scaled_one, hu]
    rw [abs_sub_lt_iff]
    cases hi : r.inc with
    | false =>
      rw [Bool.toNat_false, Nat.add_zero]
      constructor <;> linarith
    | true =>
      rw [Bool.toNat_true]
      have hlt : scaled (cutTo n p).t (q + bitlen n - p) < x := lt_of_le_of_ne hlow fun heq => by
        rw [hinc, incrementOf_of_exact _ _ _ (hmeet.1 heq)] at hi
        cases hi
      constructor <;> linarith
  · cases r.inc with
    | false => exact iff_of_false (by simp) hlow.not_gt
    | true => exact iff_of_true rfl hhigh

/-! ## NEAREST (rule R426) -/

/-- An increment of an odd significand gives an even one. -/
theorem increment_true_even {t p : Nat} (e : Int) (hp : 2 ≤ p) (ht : t % 2 = 1) :
    (increment true t e p).1 % 2 = 0 := by
  rw [increment, if_neg Bool.true_eq_false_eq_False]
  split
  · obtain ⟨k, rfl⟩ := Nat.exists_eq_add_of_le' hp
    exact Nat.mod_eq_zero_of_dvd (Dvd.intro_left (2 ^ k) rfl)
  · change (t + 1) % 2 = 0
    omega

/-- NEAREST keeps the cut when less than half a unit is discarded, or half a unit from an even significand, and
otherwise takes the successor. -/
theorem incrementOf_nearest_eq_false_iff {t : Nat} {r st s : Bool} :
    incrementOf (t % 2 == 1) r st s .nearest = false ↔ (r = true → st = false ∧ t % 2 = 0) := by
  have hodd : (t % 2 == 1) = false ↔ t % 2 = 0 := by simp
  cases r <;> simp [incrementOf, hodd]

/-- Of two numbers around `x`, the lower one is no farther than any number outside the gap, and a number at its
distance is the upper one, half-way. -/
theorem lower_nearest {lo hi x y : ℚ} (hlow : lo ≤ x) (hhalf : x - lo ≤ hi - x) (hy : y ≤ lo ∨ hi ≤ y) :
    |lo - x| ≤ |y - x| ∧ (|y - x| = |lo - x| → y ≠ lo → y = hi ∧ x - lo = hi - x) := by
  rw [abs_of_nonpos (sub_nonpos.2 hlow)]
  rcases hy with hy | hy
  · rw [abs_of_nonpos (by linarith)]
    exact ⟨by linarith, fun heq hne => absurd (by linarith) hne⟩
  · rw [abs_of_nonneg (by linarith)]
    exact ⟨by linarith, fun heq _ => ⟨by linarith, by linarith⟩⟩

/-- The same for the upper one. -/
theorem upper_nearest {lo hi x y : ℚ} (hhigh : x ≤ hi) (hhalf : hi - x ≤ x - lo) (hy : y ≤ lo ∨ hi ≤ y) :
    |hi - x| ≤ |y - x| ∧ (|y - x| = |hi - x| → y ≠ hi → y = lo ∧ x - lo = hi - x) := by
  rw [abs_of_nonneg (sub_nonneg.2 hhigh)]
  rcases hy with hy | hy
  · rw [abs_of_nonpos (by linarith)]
    exact ⟨by linarith, fun heq _ => ⟨by linarith, by linarith⟩⟩
  · rw [abs_of_nonneg (by linarith)]
    exact ⟨by linarith, fun heq hne => absurd (by linarith) hne⟩

/-- NEAREST keeps the cut when `f`, what is discarded, is at most half a unit, and takes the successor when it is at
least that; at half a unit the cut decides by being even or odd. -/
theorem nearest_decision {n p : Nat} {q : Int} {s inc : Bool} {f : ℚ}
    (hinc : inc = incrementOf ((cutTo n p).t % 2 == 1) (cutTo n p).r (cutTo n p).st s .nearest)
    (hf : f = scaled n q - scaled (cutTo n p).t (q + bitlen n - p)) :
    (inc = false → f ≤ 2 ^ (q + bitlen n - p) / 2 ∧ (f = 2 ^ (q + bitlen n - p) / 2 → (cutTo n p).t % 2 = 0)) ∧
      (inc = true → 2 ^ (q + bitlen n - p) / 2 ≤ f ∧ (f = 2 ^ (q + bitlen n - p) / 2 → (cutTo n p).t % 2 = 1)) := by
  obtain ⟨hr, hst⟩ := cutTo_flags_iff hf
  have hkeep : inc = false ↔ ((cutTo n p).r = true → (cutTo n p).st = false ∧ (cutTo n p).t % 2 = 0) :=
    hinc ▸ incrementOf_nearest_eq_false_iff
  refine ⟨fun hi => ⟨not_lt.1 fun habove => ?_, fun htie => (hkeep.1 hi (hr.2 htie.ge)).2⟩, fun hi => ?_⟩
  · have hhalf : (0 : ℚ) < 2 ^ (q + bitlen n - p) / 2 := by positivity
    have hsticky := hst.2 ⟨(hhalf.trans habove).ne', habove.ne'⟩
    rw [(hkeep.1 hi (hr.2 habove.le)).1] at hsticky
    cases hsticky
  · rw [← Bool.not_eq_false, hkeep, Classical.not_imp] at hi
    obtain ⟨hround, hup⟩ := hi
    refine ⟨hr.1 hround, fun htie => Nat.mod_two_ne_zero.1 fun heven => hup ⟨?_, heven⟩⟩
    rw [← Bool.not_eq_true, hst]
    exact fun hc => hc.2 htie

/-- Settles O18: the delivered magnitude is the nearer of the two neighbours, and at half-way the one with the even
significand; at `p = 1` the cut is odd, so half-way goes up. -/
theorem nearestTiesToEven : Obligations.NearestTiesToEven := by
  intro emax n q s p r hn hp h
  obtain ⟨h1, h2⟩ := cutTo_range hn hp
  obtain ⟨hlow, hhigh, -⟩ := cutTo_bracket n p q
  obtain ⟨hkeep, hraise⟩ := nearest_decision (q := q) (roundSOR_ok_value hn hp h).1 rfl
  obtain ⟨-, hz, -, -, -⟩ := roundCut_ok h
  have hunit : q + bitlen n - 1 - p + 1 = q + bitlen n - p := by omega
  have hnext : scaled ((cutTo n p).t + 1) (q + bitlen n - p) =
      scaled (cutTo n p).t (q + bitlen n - p) + 2 ^ (q + bitlen n - p) := by rw [scaled_add, scaled_one]
  refine ⟨_, _, hz, ?_⟩
  rw [scaled_increment _ hp, hunit]
  cases hi : r.inc with
  | false =>
    obtain ⟨hhalf, heven⟩ := hkeep hi
    refine ⟨representable_scaled _ h1 h2, fun y hy => ?_⟩
    obtain ⟨hle, htie⟩ := lower_nearest hlow (by linarith) (hy.le_or_succ_le (k := q + bitlen n - p) hp h1)
    refine ⟨hle, fun heq hne => ?_⟩
    have ht := heven (by linarith [(htie heq hne).2])
    refine ⟨fun _ => ht, fun hp1 => ?_⟩
    subst hp1
    omega
  | true =>
    obtain ⟨hhalf, hodd⟩ := hraise hi
    refine ⟨representable_scaled_succ _ hp h1 h2, fun y hy => ?_⟩
    obtain ⟨hle, htie⟩ := upper_nearest hhigh.le (by linarith) (hy.le_or_succ_le (k := q + bitlen n - p) hp h1)
    refine ⟨hle, fun heq hne => ?_⟩
    obtain ⟨hlower, hmid⟩ := htie heq hne
    exact ⟨fun hp2 => increment_true_even _ hp2 (hodd (by linarith)),
      fun _ => hlower ▸ scaled_lt_scaled.2 (Nat.lt_succ_self _)⟩

end Machine
end Sys2Proof
end

section
/-! SUPPORT. The exact sum as a number, and the exponents that a rounding of it can deliver (rules R402, R431, R432,
R456). -/

namespace Sys2Proof

theorem scaled_le_scaled_of_le (n : Nat) {q q' : Int} (h : q ≤ q') : scaled n q ≤ scaled n q' :=
  mul_le_mul_of_nonneg_left (zpow_le_zpow_right₀ (by norm_num) h) (Nat.cast_nonneg n)

theorem scaled_two_pow (k : Nat) (q : Int) : scaled (2 ^ k) q = 2 ^ (q + k) := by
  rw [← Nat.one_mul (2 ^ k), scaled_mul_two_pow, scaled_one]

/-- The leading exponent of a significand of `p` bits. -/
theorem two_zpow_le_scaled {p m : Nat} (e : Int) (hp : 1 ≤ p) (h : 2 ^ (p - 1) ≤ m) :
    2 ^ e ≤ scaled m (e - p + 1) := by
  have he : e - p + 1 + ((p - 1 : Nat) : Int) = e := by omega
  calc (2 : ℚ) ^ e = scaled (2 ^ (p - 1)) (e - p + 1) := by rw [scaled_two_pow, he]
    _ ≤ scaled m (e - p + 1) := scaled_le_scaled.2 h

theorem scaled_lt_two_zpow {p m : Nat} (e : Int) (h : m < 2 ^ p) : scaled m (e - p + 1) < 2 ^ (e + 1) := by
  have he : e - p + 1 + (p : Int) = e + 1 := by omega
  calc scaled m (e - p + 1) < scaled (2 ^ p) (e - p + 1) := scaled_lt_scaled.2 h
    _ = 2 ^ (e + 1) := by rw [scaled_two_pow, he]

/-- Every power of two is representable. -/
theorem representable_two_zpow {p : Nat} (e : Int) (hp : 1 ≤ p) : Representable p (2 ^ e) := by
  have he : e - p + 1 + ((p - 1 : Nat) : Int) = e := by omega
  refine ⟨2 ^ (p - 1), e - p + 1, le_rfl, Nat.pow_lt_pow_right (by omega) (by omega), ?_⟩
  rw [scaled_two_pow, he]

/-- The magnitude of a legal Float is legal. -/
theorem Flt.Legal.magnitude {b : Build} {s : Bool} {e : Int} {p m : Nat} (h : (Flt.fin s e p m).Legal b) :
    Machine.Magnitude.Legal ⟨e, p, m⟩ := by
  obtain ⟨hp, -, -, -, h1, h2⟩ := h
  exact ⟨hp, h1, h2⟩

namespace Machine

/-! ## The exact sum (rule R402) -/

theorem Magnitude.Legal.pos {a : Magnitude} (ha : a.Legal) : 0 < a.m := (Nat.two_pow_pos _).trans_le ha.2.1

theorem Magnitude.Legal.bitlen {a : Magnitude} (ha : a.Legal) : bitlen a.m = a.p :=
  bitlen_of_significand ha.1 ha.2.1 ha.2.2

theorem Magnitude.Legal.lt {a : Magnitude} (ha : a.Legal) : a.m < 2 ^ a.p := ha.2.2

theorem exactSum_pos {x : Magnitude} (y : Magnitude) (hx : x.Legal) : 0 < (exactSum x y).n :=
  Nat.add_pos_left (Nat.mul_pos hx.pos (Nat.two_pow_pos _)) _

theorem exactSum_comm (x y : Magnitude) : exactSum x y = exactSum y x := by
  rw [exactSum, exactSum, addExact, addExact, min_comm, Nat.add_comm]

/-- Settles O35. -/
theorem exactSumIsTheSum : Obligations.ExactSumIsTheSum := fun x y hx _ =>
  ⟨exactSum_pos y hx, scaled_addExact x.m x.ulp y.m y.ulp⟩

/-- The leading exponent of the exact sum is at least each operand's. -/
theorem le_leading_exponent_exactSum {x y : Magnitude} (hx : x.Legal) (hy : y.Legal) :
    max x.e y.e ≤ (exactSum x y).q + bitlen (exactSum x y).n - 1 := by
  obtain ⟨hxp, hxm, -⟩ := hx
  obtain ⟨hyp, hym, -⟩ := hy
  exact max_le (le_leading_exponent hxm hxp (min_le_left _ _) (Nat.le_add_right _ _))
    (le_leading_exponent hym hyp (min_le_right _ _) (Nat.le_add_left _ _))

/-- The exact sum is below the power of two that is 2 above the larger exponent. -/
theorem scaled_exactSum_lt {x y : Magnitude} (hx : x.Legal) (hy : y.Legal) :
    scaled (exactSum x y).n (exactSum x y).q < 2 ^ (max x.e y.e + 2) := by
  have bound : ∀ a : Magnitude, a.Legal → a.e ≤ max x.e y.e → scaled a.m a.ulp < 2 ^ (max x.e y.e + 1) :=
    fun a ha he => (scaled_lt_two_zpow a.e ha.lt).trans_le (zpow_le_zpow_right₀ (by norm_num) (by omega))
  have hdouble : (2 : ℚ) ^ (max x.e y.e + 2) = 2 ^ (max x.e y.e + 1) + 2 ^ (max x.e y.e + 1) := by
    have he : max x.e y.e + 2 = max x.e y.e + 1 + 1 := by omega
    rw [he, zpow_add_one₀ (by norm_num)]
    ring
  rw [exactSum, scaled_addExact, hdouble]
  exact add_lt_add (bound x hx (le_max_left _ _)) (bound y hy (le_max_right _ _))

/-- Two significands of `p` bits add up to no more than twice the largest of them at the larger exponent. -/
theorem scaled_exactSum_le {x y : Magnitude} {p : Nat} (hx : x.Legal) (hy : y.Legal) (hxp : x.p = p) (hyp : y.p = p) :
    scaled (exactSum x y).n (exactSum x y).q ≤ scaled (2 ^ p - 1) (max x.e y.e + 1 - p + 1) := by
  have bound : ∀ a : Magnitude, a.Legal → a.p = p → a.e ≤ max x.e y.e →
      scaled a.m a.ulp ≤ scaled (2 ^ p - 1) (max x.e y.e - p + 1) := fun a ha hp he => by
    have hlt := hp ▸ ha.lt
    calc scaled a.m a.ulp ≤ scaled (2 ^ p - 1) a.ulp := scaled_le_scaled.2 (by omega)
      _ ≤ scaled (2 ^ p - 1) (max x.e y.e - p + 1) := scaled_le_scaled_of_le _ (by rw [Magnitude.ulp, hp]; omega)
  have hdouble : scaled (2 ^ p - 1) (max x.e y.e + 1 - p + 1) =
      scaled (2 ^ p - 1) (max x.e y.e - p + 1) + scaled (2 ^ p - 1) (max x.e y.e - p + 1) := by
    have he : max x.e y.e + 1 - p + 1 = max x.e y.e - p + 1 + ((1 : Nat) : Int) := by omega
    rw [he, ← scaled_mul_two_pow, ← scaled_add]
    congr 1
    omega
  rw [exactSum, scaled_addExact, hdouble]
  exact add_le_add (bound x hx hxp (le_max_left _ _)) (bound y hy hyp (le_max_right _ _))

/-! ## Exponents (rules R431, R432) -/

/-- No rounding goes beyond a representable number above the exact value. -/
theorem roundSOR_ok_le_of_representable {emax : Int} {n : Nat} {q : Int} {s : Bool} {p : Nat} {m : RoundMode}
    {r : Rounded} {e : Int} {t : Nat} {y : ℚ} (hn : 0 < n) (hp : 1 ≤ p) (h : roundSOR emax n q s p m = .ok r)
    (hz : r.z = .fin s e p t) (hy : Representable p y) (hxy : scaled n q ≤ y) : scaled t (e - p + 1) ≤ y := by
  obtain ⟨hinc, e', t', hz', -, -, -, hvalue⟩ := roundSOR_ok_value hn hp h
  obtain ⟨-, rfl, -, rfl⟩ := Flt.fin.inj (hz.symm.trans hz')
  rw [hvalue]
  refine le_trans (scaled_le_scaled.2 (Nat.add_le_add_left ?_ _)) ((isLeast_cutTo q hn hp).2 ⟨hy, hxy⟩)
  cases hi : inexactOf (cutTo n p).r (cutTo n p).st with
  | false => rw [hinc, incrementOf_of_exact _ _ _ hi]
  | true => exact Bool.toNat_le _

/-- A delivered exponent is below that of any number above a representable bound of the exact value. -/
theorem roundSOR_ok_exponent_lt {emax : Int} {n : Nat} {q : Int} {s : Bool} {p : Nat} {m : RoundMode} {r : Rounded}
    {e k : Int} {t : Nat} {y : ℚ} (hn : 0 < n) (hp : 1 ≤ p) (h : roundSOR emax n q s p m = .ok r)
    (hz : r.z = .fin s e p t) (ht : 2 ^ (p - 1) ≤ t) (hy : Representable p y) (hxy : scaled n q ≤ y) (hk : y < 2 ^ k) :
    e < k :=
  (zpow_lt_zpow_iff_right₀ (by norm_num : (1 : ℚ) < 2)).1
    (((two_zpow_le_scaled e hp ht).trans (roundSOR_ok_le_of_representable hn hp h hz hy hxy)).trans_lt hk)

/-- The exponent of a rounded sum (rule R431). -/
theorem roundSOR_exactSum_exponent {emax : Int} {x y : Magnitude} {s : Bool} {p : Nat} {m : RoundMode} {r : Rounded}
    (hx : x.Legal) (hy : y.Legal) (hp : 1 ≤ p)
    (h : roundSOR emax (exactSum x y).n (exactSum x y).q s p m = .ok r) :
    ∃ e t, r.z = .fin s e p t ∧ max x.e y.e ≤ e ∧ e ≤ max x.e y.e + 2 ∧
      (x.p = p → y.p = p → e ≤ max x.e y.e + 1) := by
  have hn := exactSum_pos y hx
  obtain ⟨e, t, hz, ht1, -, hlow, -, -⟩ := roundSOR_ok_fin hn hp h
  refine ⟨e, t, hz, (le_leading_exponent_exactSum hx hy).trans hlow, ?_, fun hxp hyp => ?_⟩
  · have hlt := roundSOR_ok_exponent_lt hn hp h hz ht1 (representable_two_zpow (max x.e y.e + 2) hp)
      (scaled_exactSum_lt hx hy).le (zpow_lt_zpow_right₀ (by norm_num) (lt_add_one _))
    omega
  · have hones : 2 ^ p - 1 < 2 ^ p := Nat.sub_lt (Nat.two_pow_pos p) Nat.one_pos
    have hhigh : 2 ^ (p - 1) ≤ 2 ^ p - 1 := Nat.le_sub_one_of_lt (Nat.pow_lt_pow_right (by omega) (by omega))
    have hlt := roundSOR_ok_exponent_lt hn hp h hz ht1 (representable_scaled _ hhigh hones)
      (scaled_exactSum_le hx hy hxp hyp) (scaled_lt_two_zpow (max x.e y.e + 1) hones)
    omega

/-- Settles O23. A sum is below a representable number of the exponent bound; a single operand is its own leading
exponent. -/
theorem resultExponentRange : Obligations.ResultExponentRange := by
  refine ⟨fun emax x y s p m r hx hy hp h => ?_, ⟨_, rfl, rfl⟩, fun emax a s p m r ha hp h => ?_⟩
  · obtain ⟨e, t, hz, hlow, hhigh, hfixed⟩ := roundSOR_exactSum_exponent hx hy hp h
    exact ⟨e, t, hz, hlow, hhigh, hfixed, fun emin hmin => hmin.trans ((le_max_left _ _).trans hlow)⟩
  · obtain ⟨e, t, hz, -, -, hlow, hhigh, -⟩ := roundSOR_ok_fin ha.pos hp h
    rw [ha.bitlen, Magnitude.ulp] at hlow hhigh
    exact ⟨e, t, hz, by omega, by omega⟩

/-! ## A single operand (rule R456) -/

/-- At a precision not below its own, a single operand is filled with zeros. -/
theorem single_of_le {b : Build} {a : Magnitude} {t : Nat} (s : Bool) (m : RoundMode) (ha : a.Legal) (he : a.e ≤ b.emax)
    (ht : a.p ≤ t) :
    single b s a t m = .ok
      { z := .fin s a.e t (a.m * 2 ^ (t - a.p)), ord := .equal, rb := false, sb := false, inc := false
        regime := .general } := by
  have hlead : a.ulp + a.p - 1 = a.e := by
    rw [Magnitude.ulp]
    omega
  rw [single, roundSOR, cutTo_of_fits (ha.bitlen.trans_le ht), ha.bitlen, hlead, roundCut_of_exact s t m rfl he]
  rfl

/-- Settles O24. -/
theorem singleOperandIsIdempotent : Obligations.SingleOperandIsIdempotent := by
  intro b z s e p m t rm h ht d
  obtain ⟨-, -, -, he, -⟩ := id h
  have hsingle : single b s ⟨e, p, m⟩ t rm = .ok d := single_of_le s rm h.magnitude he ht
  rw [addCore_zero_fin, addCore_fin_zero]
  exact ⟨hsingle, hsingle⟩

end Machine
end Sys2Proof
end

section
/-! SUPPORT. The kernels against the specification of record (rules R440 to R455). A fixed kernel cuts the exact sum at
the alignment distance and then by one more bit if it carries; the general kernel replaces a tail that only the sticky bit
sees. -/

namespace Sys2Proof.Machine

/-! ## The dispatcher (rule R440) -/

theorem regime_common (w p : Nat) :
    regime w p p p =
      if p < w then .ltW else if p = w then .eqW else if p < 2 * w then .gtWLt2W else if p = 2 * w then .eq2W
      else if p < 3 * w then .gt2WLt3W else .ge3W := if_neg (by simp)

theorem regime_eq_general_iff (w px py p : Nat) : regime w px py p = .general ↔ ¬(px = p ∧ py = p) := by
  by_cases h : px = py ∧ py = p
  · obtain ⟨rfl, rfl⟩ := h
    rw [regime_common]
    split_ifs <;> simp
  · exact iff_of_true (if_pos h) (by omega)

/-- Settles O25: the rows of one common precision exclude each other. -/
theorem regimeConditions : Obligations.RegimeConditions := by
  intro w px py p hw
  refine ⟨regime_eq_general_iff w px py p, ?_⟩
  rw [regime_common]
  split_ifs <;> simp <;> omega

/-! ## Post-normalization (rule R443) -/

/-- A sum of at most one bit too many, cut off at `d` bits and post-normalized, is the cut to `p` bits, and the exponent
moves with its length. -/
theorem postNormalize_cutAt {n p d : Nat} (e : Int) (hp : 1 ≤ p) (h1 : 2 ^ (p - 1 + d) ≤ n) (h2 : n < 2 ^ (p + d + 1)) :
    postNormalize p (cutAt n d).t (cutAt n d).r (cutAt n d).st e = (cutTo n p, e + bitlen n - (p + d : Nat)) := by
  rcases Nat.lt_or_ge n (2 ^ (p + d)) with hfits | hcarry
  · have hlen : bitlen n = p + d := by
      have := bitlen_eq_of_bounds h1 (hfits.trans_eq (congrArg (2 ^ ·) (by omega)))
      omega
    have hsum : (cutAt n d).t < 2 ^ p := by
      rwa [cutAt_t, Nat.div_lt_iff_lt_mul (Nat.two_pow_pos d), ← Nat.pow_add]
    rw [postNormalize_of_fits _ _ _ hsum, cutTo_of_bitlen hlen, hlen, Int.add_sub_cancel]
  · have hlen : bitlen n = p + (d + 1) := bitlen_eq_of_bounds hcarry h2
    have hsum : 2 ^ p ≤ (cutAt n d).t := by
      rwa [cutAt_t, Nat.le_div_iff_mul_le (Nat.two_pow_pos d), ← Nat.pow_add]
    have he : e + 1 = e + ((p + (d + 1) : Nat) : Int) - (p + d : Nat) := by omega
    rw [postNormalize_of_carry _ _ _ hsum, cutTo_of_bitlen hlen, hlen, cutAt_succ_of_cutAt, he]

section CommonPrecision

variable {a b : Magnitude} {p : Nat} (ha : a.Legal) (hb : b.Legal) (hap : a.p = p) (hbp : b.p = p) (he : b.e ≤ a.e)

include hap hbp he in
/-- The exact sum at one common precision: `b` stays, `a` moves up by the distance of the exponents. -/
theorem exactSum_of_common :
    exactSum a b = { n := a.m * 2 ^ (a.e - b.e).toNat + b.m, q := b.ulp } := by
  have hmin : min a.ulp b.ulp = b.ulp := min_eq_right (by rw [Magnitude.ulp, Magnitude.ulp, hap, hbp]; omega)
  have hd : (a.ulp - b.ulp).toNat = (a.e - b.e).toNat := by
    rw [Magnitude.ulp, Magnitude.ulp, hap, hbp]
    omega
  rw [exactSum, addExact, hmin, hd, Int.sub_self, Int.toNat_zero, Nat.pow_zero, Nat.mul_one]

include ha hb hap hbp he in
/-- The aligned sum, post-normalized, is the cut of the exact sum with its exponent. -/
theorem postNormalize_aligned :
    let c := cutAt b.m (a.e - b.e).toNat
    postNormalize p (a.m + c.t) c.r c.st a.e =
      (cutTo (exactSum a b).n p, (exactSum a b).q + bitlen (exactSum a b).n - 1) := by
  intro c
  obtain ⟨hp, ha1, ha2⟩ := ha
  obtain ⟨-, -, hb2⟩ := hb
  rw [hap] at hp ha1 ha2
  rw [hbp] at hb2
  rw [exactSum_of_common hap hbp he]
  set d := (a.e - b.e).toNat with hd
  have hcut : cutAt (a.m * 2 ^ d + b.m) d = { t := a.m + c.t, r := c.r, st := c.st } :=
    cutAt_mul_two_pow_add a.m b.m d
  have hlow : 2 ^ (p - 1 + d) ≤ a.m * 2 ^ d + b.m := by
    rw [Nat.pow_add]
    exact (Nat.mul_le_mul_right _ ha1).trans (Nat.le_add_right _ _)
  have hhigh : a.m * 2 ^ d + b.m < 2 ^ (p + d + 1) := by
    have h1 : a.m * 2 ^ d < 2 ^ (p + d) := by
      rw [Nat.pow_add]
      exact Nat.mul_lt_mul_of_pos_right ha2 (Nat.two_pow_pos d)
    have h2 : b.m < 2 ^ (p + d) := hb2.trans_le (Nat.pow_le_pow_right (by omega) (by omega))
    rw [Nat.pow_succ]
    omega
  have hexp : a.e + bitlen (a.m * 2 ^ d + b.m) - (p + d : Nat) = b.ulp + bitlen (a.m * 2 ^ d + b.m) - 1 := by
    rw [Magnitude.ulp, hbp]
    omega
  have hnorm := postNormalize_cutAt a.e hp hlow hhigh
  rwa [hcut, hexp] at hnorm

end CommonPrecision

/-! ## The fixed kernel on words (rules R444, R446) -/

/-- The significand and the exponent after the increment on words. -/
theorem mwinc_eq_increment {w p t : Nat} (inc : Bool) (e : Int) (hw : 0 < w) (hp : 1 ≤ p) (ht : t < 2 ^ p) :
    let words := toWords w (wordsFor w p) (t * 2 ^ padBits w p)
    let bumped := mwinc w words (padBits w p)
    (if inc = false then wordsValue w words / 2 ^ padBits w p
      else if bumped.2 = 1 then 2 ^ (p - 1) else wordsValue w bumped.1 / 2 ^ padBits w p) = (increment inc t e p).1 ∧
    (if inc = true ∧ bumped.2 = 1 then e + 1 else e) = (increment inc t e p).2 := by
  intro words bumped
  cases inc with
  | false =>
    have hvalue : wordsValue w words = t * 2 ^ padBits w p := wordsValue_leftAligned hw ht
    simp [increment, hvalue]
  | true =>
    rcases mwinc_cases hw hp ht with ⟨hall, hcarry, -⟩ | ⟨hlow, hcarry, hnext⟩
    · have hcarry : bumped.2 = 1 := hcarry
      simp [increment, hcarry, hall]
    · have hcarry : bumped.2 = 0 := hcarry
      have hnext : wordsValue w bumped.1 = (t + 1) * 2 ^ padBits w p := hnext
      simp [increment, hcarry, hnext, hlow.ne]

/-- Rounding on left-aligned words is the last part of every rounding. -/
theorem roundWords_eq_roundCut {w p : Nat} {c : Cut} (emax e : Int) (s : Bool) (m : RoundMode) (hw : 0 < w)
    (hp : 1 ≤ p) (ht : c.t < 2 ^ p) : roundWords w emax c e s p m = roundCut emax c e s p m := by
  unfold roundWords roundCut
  cases reng (c.t % 2 == 1) c.r c.st s m with
  | error f => rfl
  | ok d =>
    obtain ⟨hsig, hexp⟩ := mwinc_eq_increment d.1 e hw hp ht
    simp only [hsig, hexp]

/-- Settles O26: the words hold the aligned sum with its carry, whose post-normalization is the cut of the exact sum. -/
theorem fixedKernelEqualsRecord : Obligations.FixedKernelEqualsRecord := by
  intro w emax a b s p m hw ha hb hap hbp he
  have hp : 1 ≤ p := hap ▸ ha.1
  have ham : a.m < 2 ^ p := hap ▸ ha.lt
  have hbm : b.m < 2 ^ p := hbp ▸ hb.lt
  have halign := align_eq_cutAt (a.e - b.e).toNat hb.pos hbm
  have htail : (cutAt b.m (a.e - b.e).toNat).t < 2 ^ p := (Nat.div_le_self _ _).trans_lt hbm
  simp only [fixedKernel]
  rw [halign, mwadd_leftAligned hw ham htail, Nat.mul_div_cancel _ (Nat.two_pow_pos _),
    postNormalize_aligned ha hb hap hbp he,
    roundWords_eq_roundCut _ _ _ _ hw hp (cutTo_range (exactSum_pos b ha) hp).2]
  rfl

/-! ## The realization in the padding (rule R445) -/

/-- Round and sticky bits read from the discarded bits themselves. -/
theorem tail_flags (v k : Nat) :
    (if k = 0 then false else bitAt (v % 2 ^ k) (k - 1)) = (cutAt v k).r ∧
      (if k = 0 then false else decide (v % 2 ^ k % 2 ^ (k - 1) ≠ 0)) = (cutAt v k).st := by
  cases k with
  | zero => simp
  | succ k =>
    rw [cutAt_succ, if_neg k.succ_ne_zero, if_neg k.succ_ne_zero, Nat.add_sub_cancel,
      Nat.mod_mod_of_dvd _ (Nat.pow_dvd_pow 2 k.le_succ), bitAt_eq_testBit, Nat.testBit_mod_two_pow,
      decide_eq_true k.lt_succ_self, Bool.true_and, bitAt_eq_testBit]
    exact ⟨rfl, rfl⟩

/-- The sum with padding and the bits shifted out make up the padded exact sum. -/
theorem padded_parts (am bm pad d : Nat) :
    let v := (am * 2 ^ d + bm) * 2 ^ pad
    let f := am * 2 ^ pad + (shr (bm * 2 ^ pad) d).1
    f / 2 ^ pad = v / 2 ^ (pad + d) ∧ f % 2 ^ pad * 2 ^ d + (shr (bm * 2 ^ pad) d).2 = v % 2 ^ (pad + d) := by
  intro v f
  have hv : v = bm * 2 ^ pad + am * 2 ^ pad * 2 ^ d := by
    change (am * 2 ^ d + bm) * 2 ^ pad = _
    ring
  have hf : v / 2 ^ d = f := by
    rw [hv, Nat.add_mul_div_right _ _ (Nat.two_pow_pos d), Nat.add_comm]
    rfl
  have hout : v % 2 ^ d = (shr (bm * 2 ^ pad) d).2 := by
    rw [hv, Nat.add_mul_mod_self_right]
    rfl
  rw [← hf, ← hout, Nat.add_comm pad d, Nat.pow_add, Nat.div_div_eq_div_mul, Nat.mod_mul]
  exact ⟨rfl, by ring⟩

/-- Settles O27: padding bits and bits shifted out are the discarded bits of the exact sum, followed by zeros. -/
theorem paddedKernelEqualsRecord : Obligations.PaddedKernelEqualsRecord := by
  intro w emax a b s p m _ ha hb hap hbp he
  obtain ⟨hdiv, htail⟩ := padded_parts a.m b.m (padBits w p) (a.e - b.e).toNat
  have hcut : cutAt ((a.m * 2 ^ (a.e - b.e).toNat + b.m) * 2 ^ padBits w p) (padBits w p + (a.e - b.e).toNat) =
      cutAt (a.m * 2 ^ (a.e - b.e).toNat + b.m) (a.e - b.e).toNat := by
    rw [Nat.add_comm (padBits w p), cutAt_mul_two_pow]
  simp only [paddedKernel]
  rw [htail, (tail_flags _ _).1, (tail_flags _ _).2, hdiv, ← cutAt_t, hcut, cutAt_mul_two_pow_add,
    postNormalize_aligned ha hb hap hbp he]
  rfl

/-! ## The general kernel (rules R451 to R455) -/

/-- A tail below half a unit of the target precision shows in the rounding by being there, whatever it is. -/
theorem roundSOR_of_tail {a r g p : Nat} (emax q : Int) (s : Bool) (m : RoundMode) (ha : 0 < a) (hr : 0 < r)
    (hrg : r < 2 ^ g) (hp : p < bitlen a) :
    roundSOR emax (a * 2 ^ g + r) q s p m =
      roundCut emax { t := a / 2 ^ (bitlen a - p), r := bitAt a (bitlen a - p - 1), st := true }
        (q + g + bitlen a - 1) s p m := by
  have hlen := bitlen_mul_two_pow_add ha hrg
  have hsplit : bitlen (a * 2 ^ g + r) = p + (bitlen a - p + g) := by omega
  have hexp : q + ((bitlen a + g : Nat) : Int) - 1 = q + g + bitlen a - 1 := by omega
  rw [roundSOR, cutTo_of_bitlen hsplit, cutAt_of_tail a hr hrg (by omega), hlen, hexp]

/-- An addend wholly below a position `g` of the other one is the tail of their sum. -/
theorem addExact_of_below {ma mb : Nat} {qa qb g : Int} (h1 : qb ≤ g) (h2 : g ≤ qa) :
    addExact ma qa mb qb = { n := ma * 2 ^ (qa - g).toNat * 2 ^ (g - qb).toNat + mb, q := qb } := by
  have hsplit : (qa - qb).toNat = (qa - g).toNat + (g - qb).toNat := by omega
  rw [addExact, min_eq_right (h1.trans h2), Int.sub_self, Int.toNat_zero, Nat.pow_zero, Nat.mul_one, hsplit,
    Nat.pow_add, Nat.mul_assoc]

/-- The rounding of a sum whose smaller addend lies below a position beyond the round bit does not depend on that
addend. -/
theorem roundSOR_addExact_of_below {ma mb p : Nat} {qa qb g : Int} (emax : Int) (s : Bool) (m : RoundMode)
    (h1 : qb ≤ g) (h2 : g ≤ qa) (hma : 0 < ma) (hmb : 0 < mb) (hlt : mb < 2 ^ (g - qb).toNat)
    (hp : p < bitlen (ma * 2 ^ (qa - g).toNat)) :
    let a := ma * 2 ^ (qa - g).toNat
    roundSOR emax (addExact ma qa mb qb).n (addExact ma qa mb qb).q s p m =
      roundCut emax { t := a / 2 ^ (bitlen a - p), r := bitAt a (bitlen a - p - 1), st := true }
        (g + bitlen a - 1) s p m := by
  intro a
  have hg : qb + ((g - qb).toNat : Int) = g := by omega
  rw [addExact_of_below h1 h2, roundSOR_of_tail emax qb s m (Nat.mul_pos hma (Nat.two_pow_pos _)) hmb hlt hp, hg]

/-- `a` down to the guard position has more than `p` bits: the guard position is beyond the round bit. -/
theorem bitlen_above_guard {a : Magnitude} (p : Nat) (ha : a.Legal) :
    bitlen (a.m * 2 ^ (a.ulp - guardPosition a p).toNat) = a.p + (a.ulp - guardPosition a p).toNat :=
  (bitlen_mul_two_pow_add ha.pos (Nat.two_pow_pos _)).trans (by rw [ha.bitlen])

theorem precision_above_guard {a : Magnitude} (p : Nat) (ha : 1 ≤ a.p) :
    a.p + (a.ulp - guardPosition a p).toNat = max (a.p - 1) p + 1 := by
  rw [guardPosition, Magnitude.ulp]
  omega

theorem generalKernel_eq_roundSOR {a b : Magnitude} (emax : Int) (s : Bool) (p : Nat) (m : RoundMode) (ha : a.Legal)
    (hb : b.Legal) :
    generalKernel emax a b s p m = roundSOR emax (exactSum a b).n (exactSum a b).q s p m := by
  rw [generalKernel]
  rcases lt_or_ge b.e (guardPosition a p) with hbelow | habove
  · have hguard : guardPosition a p ≤ a.ulp := min_le_left _ _
    have hroom : b.p ≤ (guardPosition a p - b.ulp).toNat := by
      rw [Magnitude.ulp]
      omega
    have hbulp : b.ulp ≤ guardPosition a p := by
      have := hb.1
      omega
    have hlen : p < bitlen (a.m * 2 ^ (a.ulp - guardPosition a p).toNat) := by
      rw [bitlen_above_guard p ha, precision_above_guard p ha.1]
      omega
    have hunit : 1 < 2 ^ (guardPosition a p - (guardPosition a p - 1)).toNat := by
      rw [Int.sub_sub_self]
      decide
    rw [compressedSum_of_below hbelow, exactSum,
      roundSOR_addExact_of_below emax s m (by omega) hguard ha.pos Nat.one_pos hunit hlen,
      roundSOR_addExact_of_below emax s m hbulp hguard ha.pos hb.pos
        (hb.lt.trans_le (Nat.pow_le_pow_right (by omega) hroom)) hlen]
  · rw [compressedSum_of_above habove]

/-- The length of the exact sum of two magnitudes. -/
theorem bitlen_exactSum_le {x y : Magnitude} (hx : x.Legal) (hy : y.Legal) :
    (exactSum x y).q + bitlen (exactSum x y).n ≤ max x.e y.e + 2 := by
  have hn := exactSum_pos y hx
  have hlead : 2 ^ ((exactSum x y).q + bitlen (exactSum x y).n - 1) ≤ scaled (exactSum x y).n (exactSum x y).q := by
    have hq : (exactSum x y).q = (exactSum x y).q + bitlen (exactSum x y).n - 1 - bitlen (exactSum x y).n + 1 := by
      omega
    conv_rhs => rw [hq]
    exact two_zpow_le_scaled _ (bitlen_pos hn) (bitlen_bounds hn).1
  have hlt := (zpow_lt_zpow_iff_right₀ (by norm_num : (1 : ℚ) < 2)).1 (hlead.trans_lt (scaled_exactSum_lt hx hy))
  omega

/-- The frame of the compressed sum (rule R455). -/
theorem bitlen_compressedSum_le {a b : Magnitude} (p : Nat) (ha : a.Legal) (hb : b.Legal) (he : b.e ≤ a.e) :
    bitlen (compressedSum a b p).n ≤ max (a.p - 1) p + b.p + 1 := by
  have hb1 := hb.1
  have ha1 := ha.1
  rcases lt_or_ge b.e (guardPosition a p) with hbelow | habove
  · have hone : (guardPosition a p - (guardPosition a p - 1)).toNat = 1 := by omega
    rw [compressedSum_of_below hbelow, addExact_of_below (g := guardPosition a p) (by omega) (min_le_left _ _), hone,
      bitlen_mul_two_pow_add (Nat.mul_pos ha.pos (Nat.two_pow_pos _)) (by decide), bitlen_above_guard p ha,
      precision_above_guard p ha1]
    omega
  · have hlen := bitlen_exactSum_le ha hb
    have hq : (exactSum a b).q = min a.ulp b.ulp := addExact_q _ _ _ _
    rw [compressedSum_of_above habove]
    rw [guardPosition, Magnitude.ulp] at habove
    rw [hq, Magnitude.ulp, Magnitude.ulp] at hlen
    omega

/-- Settles O28. -/
theorem generalKernelEqualsRecord : Obligations.GeneralKernelEqualsRecord := by
  refine ⟨fun emax a b s p pMax m ha hb _ he hap hbp hp => ?_, rfl⟩
  exact ⟨generalKernel_eq_roundSOR emax s p m ha hb, bitlen_compressedSum_le p ha hb he, by omega⟩

/-! ## The dispatched datapath -/

theorem orderOperands_cases (x y : Magnitude) :
    (orderOperands x y = (x, y) ∧ y.e ≤ x.e) ∨ (orderOperands x y = (y, x) ∧ x.e ≤ y.e) := by
  rcases lt_or_ge x.e y.e with h | h
  · exact .inr ⟨if_pos h, h.le⟩
  · exact .inl ⟨if_neg h.not_gt, h⟩

/-- Settles O29: the kernels answer the record for operands in order, and the exact sum does not depend on the
order. -/
theorem dispatchedKernelEqualsRecord : Obligations.DispatchedKernelEqualsRecord := by
  intro w emax x y s p m hw hx hy _
  by_cases hgen : regime w x.p y.p p = .general
  · rw [dispatchKernel_of_general emax s m hgen]
    rcases orderOperands_cases x y with ⟨hord, -⟩ | ⟨hord, -⟩ <;> rw [hord]
    · exact generalKernel_eq_roundSOR emax s p m hx hy
    · rw [exactSum_comm x y]
      exact generalKernel_eq_roundSOR emax s p m hy hx
  · obtain ⟨hxp, hyp⟩ := not_not.1 ((regime_eq_general_iff w x.p y.p p).not.1 hgen)
    rw [dispatchKernel_of_fixed emax s m hgen]
    rcases orderOperands_cases x y with ⟨hord, he⟩ | ⟨hord, he⟩ <;> rw [hord]
    · exact fixedKernelEqualsRecord w emax x y s p m hw hx hy hxp hyp he
    · rw [exactSum_comm x y]
      exact fixedKernelEqualsRecord w emax y x s p m hw hy hx hyp hxp he

end Sys2Proof.Machine
end

section
/-! SUPPORT. Two facts about whole commands: EXACT delivers every sum it can (rules R421, R434), and the order of the
operands does not show (rules R401, R500). -/

namespace Sys2Proof

theorem abs_signed (s : Bool) (x : ℚ) : |signed s x| = |x| := by
  cases s with
  | false => rfl
  | true => exact abs_neg x

namespace Machine

/-! ## EXACT -/

/-- AddCore under EXACT delivers an exact value that is representable and in range. -/
theorem addCore_exact_of_representable {b : Build} {p : Nat} {x y : Flt} {sg : Bool} {v : Exact}
    (hval : exactValueOf x y = some (sg, v)) (hn : 0 < v.n) (hp : 1 ≤ p) (hrep : Representable p (scaled v.n v.q))
    (hmax : v.q + bitlen v.n - 1 ≤ b.emax) :
    ∃ d e t, addCore b p .exact x y = .ok d ∧ d.z = .fin sg e p t ∧
      scaled t (e - p + 1) = scaled v.n v.q ∧ d.ord = .equal := by
  obtain ⟨-, hdeliver, hvalue⟩ := exactModeSucceedsIffRepresentable b.emax v.n v.q sg p hn hp
  obtain ⟨r, hr⟩ := hdeliver hrep hmax
  obtain ⟨e, t, hz, heq, hord, -⟩ := hvalue r hr
  obtain ⟨g, hcore⟩ := addCore_of_exactValue b p .exact hval
  rw [hr] at hcore
  exact ⟨_, e, t, hcore, hz, heq, hord⟩

/-- Settles O37: the leading exponent of the sum is within `EMAX`, so AddCore delivers it, and its bundle decodes. -/
theorem exactModeDeliversTheSum : Obligations.ExactModeDeliversTheSum := by
  intro i s sg e e' p m p' m' xv yv hb hxy hi hmode hmax hx hy t hrep
  have hval : exactValueOf (.fin sg e p m) (.fin sg e' p' m') = some (sg, exactSum ⟨e, p, m⟩ ⟨e', p', m'⟩) := if_pos rfl
  have hsum := signed_exactValueOf hval hx hy
  have hxl := decodeBundle_legal hb hxy.1
  have hyl := decodeBundle_legal hb hxy.2
  have hn := exactSum_pos ⟨e', p', m'⟩ hxl.magnitude
  have hlen : (exactSum ⟨e, p, m⟩ ⟨e', p', m'⟩).q + bitlen (exactSum ⟨e, p, m⟩ ⟨e', p', m'⟩).n ≤ max e e' + 2 :=
    bitlen_exactSum_le hxl.magnitude hyl.magnitude
  rw [← hsum, abs_signed, abs_of_pos (scaled_pos _ hn)] at hrep
  obtain ⟨d, ez, mz, hcore, hz, heq, hord⟩ := addCore_exact_of_representable (b := s.build) hval hn
    (targetOf_range hb hi hxl hyl).1 hrep (by omega)
  have hanswer : answerOf i s = .ok d := by
    rw [answerOf_eq_addCore hi hxy, hmode, hcore]
  obtain ⟨hstatus, hordOf, -⟩ := fields_okResponse s.build d
  have hbundle := decodeBundle_encodeBundle hb (answerOf_ok_legal hb hanswer)
  refine ⟨_, ez, mz, exec_eq i s, ?_, ?_, ?_, ?_⟩
  · rw [hanswer]
    exact hstatus
  · rw [hanswer, ← hz]
    exact hbundle
  · rw [Flt.toRat, heq, hsum]
  · rw [hanswer]
    exact hordOf.trans (by rw [hord]; rfl)

/-! ## Commutativity -/

theorem operandPrecision_comm (x y : Flt) : operandPrecision x y = operandPrecision y x := max_comm _ _

theorem select_comm (opc rm tp : Nat) (x y : Flt) : select opc rm tp x y = select opc rm tp y x := by
  rw [select, select, operandPrecision_comm]

theorem zeroSum_comm (sx sy : Bool) (m : RoundMode) : zeroSum sx sy m = zeroSum sy sx m := by
  cases sx <;> cases sy <;> rfl

theorem regime_comm (w px py p : Nat) : regime w px py p = regime w py px p := by
  have hiff : (px = py ∧ py = p) ↔ (py = px ∧ px = p) := by omega
  simp only [regime, hiff]

theorem sum_comm (b : Build) (s : Bool) (x y : Magnitude) (p : Nat) (m : RoundMode) :
    sum b s x y p m = sum b s y x p m := by
  rw [sum, sum, exactSum_comm, regime_comm]

theorem addCore_comm (b : Build) (p : Nat) (m : RoundMode) (x y : Flt) : addCore b p m x y = addCore b p m y x := by
  cases x with
  | nan => rw [addCore_nan_left, addCore_nan_right]
  | inf s =>
    cases y with
    | nan => rfl
    | inf s' => cases s <;> cases s' <;> rfl
    | zero s' => rfl
    | fin s' e' p' m' => rfl
  | zero s =>
    cases y with
    | nan => rfl
    | inf s' => rfl
    | zero s' => rw [addCore_zero_zero, addCore_zero_zero, zeroSum_comm]
    | fin s' e' p' m' => rfl
  | fin s e q t =>
    cases y with
    | nan => rfl
    | inf s' => rfl
    | zero s' => rfl
    | fin s' e' q' t' =>
      rw [addCore_fin_fin, addCore_fin_fin]
      by_cases hs : s = s'
      · rw [hs, sum_comm]
      · rw [if_pos hs, if_pos (Ne.symm hs)]

/-- Two bundles that do not decode are answered alike in either order. -/
theorem withOperands_comm {α : Type} {k : Flt → Flt → Except FaultStatus α} (b : Build) (X Y : Nat)
    (hk : ∀ x y, k x y = k y x) : withOperands b X Y k = withOperands b Y X k := by
  cases hx : decodeBundle b X with
  | none => rw [withOperands_of_none k (.inl hx), withOperands_of_none k (.inr hx)]
  | some x =>
    cases hy : decodeBundle b Y with
    | none => rw [withOperands_of_none k (.inr hy), withOperands_of_none k (.inl hy)]
    | some y => rw [withOperands_of_some k hx hy, withOperands_of_some k hy hx, hk]

/-- Settles O44: only AddCore and the target precision look at the operands, and both are symmetric. -/
theorem responseIsCommutative : Obligations.ResponseIsCommutative := by
  intro b c X Y
  have hcore := withOperands_comm b X Y (k := fun x y => addCore b (select (opcOf c) (rmOf c) (tprecOf c) x y).1
    (select (opcOf c) (rmOf c) (tprecOf c) x y).2 x y) fun x y => by rw [select_comm, addCore_comm]
  rw [respondTo, respondTo, execute, execute, hcore]

end Machine
end Sys2Proof
end

section
/-! SUPPORT. What each command answers for two decoded operands, case by case (rules R502 to R509, R515). -/

namespace Sys2Proof.Machine

/-! ## From AddCore to the next state -/

/-- All that a command with a valid precision does with decoded operands: it completes with the answer of AddCore at
the target precision and the mode it asks for. -/
theorem exec_of_holds {i : Instr} {s : State} {x y : Flt} (hi : i.PrecisionValid s.build) (hxy : s.Holds x y) :
    exec i s = .next (s.respond (addCore s.build (targetOf i x y) (modeOf i) x y)) := by
  rw [exec_eq, answerOf_eq_addCore hi hxy]

/-- A special value is delivered with an all-zero response word (rule R507). -/
theorem exec_of_special {i : Instr} {s : State} {x y v : Flt} (hi : i.PrecisionValid s.build) (hxy : s.Holds x y)
    (h : addCore s.build (targetOf i x y) (modeOf i) x y = special v) :
    exec i s = .next (s.complete { word := 0, z := encodeBundle s.build v }) := by
  rw [exec_of_holds hi hxy, h, State.respond, responseOf_special]

/-- A rounding answers its value with its regime, or its failure. -/
theorem exec_of_rounded {i : Instr} {s : State} {x y : Flt} {r : Except FaultStatus Rounded} {g : Regime}
    (hi : i.PrecisionValid s.build) (hxy : s.Holds x y) :
    addCore s.build (targetOf i x y) (modeOf i) x y = deliverRounded r g →
    exec i s = .next (s.complete
      (match r with
        | .ok r => okResponse s.build { z := r.z, ord := r.ord, rb := r.rb, sb := r.sb, inc := r.inc, regime := g }
        | .error f => faultResponse f)) := by
  intro h
  rw [exec_of_holds hi hxy, h]
  cases r with
  | ok r => rfl
  | error f => rfl

/-! ## Special values (rules R502 to R505) -/

/-- Settles O30. -/
theorem nanPropagates : Obligations.NanPropagates := by
  rintro i s x y hxy hi (rfl | rfl)
  · exact exec_of_special hi hxy (addCore_nan_left _ _ _ _)
  · exact exec_of_special hi hxy (addCore_nan_right _ _ _ _)

/-- Settles O31. -/
theorem infinitiesAbsorb : Obligations.InfinitiesAbsorb := by
  intro i s x y hxy hi
  refine ⟨?_, ?_⟩
  · rintro a b rfl rfl
    exact exec_of_special hi hxy (addCore_inf_inf _ _ _ _ _)
  · rintro a (⟨rfl, hnan, hinf⟩ | ⟨rfl, hnan, hinf⟩)
    · exact exec_of_special hi hxy (addCore_inf_left _ _ _ _ _ hnan hinf)
    · exact exec_of_special hi hxy (addCore_inf_right _ _ _ _ _ hnan hinf)

/-- The sum of two zeros is a zero, whose sign depends on the mode for zeros of opposite signs alone. -/
theorem zeroSum_eq_zero (a b : Bool) (m : RoundMode) :
    zeroSum a b m = .zero (if a = b then a else if m = .floor then true else false) := by
  unfold zeroSum
  split_ifs <;> rfl

/-- Settles O32. -/
theorem zeroSumSign : Obligations.ZeroSumSign := by
  intro i s a b hxy hi
  refine exec_of_special hi hxy ?_
  rw [addCore_zero_zero, zeroSum_eq_zero]

/-! ## Finite operands (rules R506 to R509) -/

/-- Settles O33: AddCore rounds the finite operand by `single`, in either position. -/
theorem zeroPlusFiniteIsRounded : Obligations.ZeroPlusFiniteIsRounded := by
  rintro i s z sg e p m x y hxy hi (⟨rfl, rfl⟩ | ⟨rfl, rfl⟩)
  · exact exec_of_rounded hi hxy (addCore_zero_fin _ _ _ _ _ _ _ _)
  · exact exec_of_rounded hi hxy (addCore_fin_zero _ _ _ _ _ _ _ _)

/-- AddCore of two finite operands of one sign. -/
theorem addCore_fin_same_sign (b : Build) (t : Nat) (rm : RoundMode) (s : Bool) (e e' : Int) (p m p' m' : Nat) :
    addCore b t rm (.fin s e p m) (.fin s e' p' m') = sum b s ⟨e, p, m⟩ ⟨e', p', m'⟩ t rm := by
  rw [addCore_fin_fin, if_neg (not_not_intro rfl)]

/-- Settles O34: AddCore rounds the exact sum by `sum`. -/
theorem sameSignSumIsRounded : Obligations.SameSignSumIsRounded := by
  intro i s sg e e' p m p' m' hxy hi t
  exact exec_of_rounded hi hxy (addCore_fin_same_sign _ _ _ _ _ _ _ _ _ _)

/-- Settles O39: AddCore of opposite signs fails, and a failure answers its status code alone. -/
theorem oppositeSignsRequireSubtraction : Obligations.OppositeSignsRequireSubtraction := by
  intro i s sg e e' p m p' m' hxy hi
  have hsign : sg ≠ !sg := (Bool.not_ne_self sg).symm
  rw [exec_of_holds hi hxy, addCore_fin_fin, if_pos hsign, respond_error]
  rfl

/-! ## The four commands (rule R515) -/

/-- Settles O43. ADD_PREC and ADD are their rounding forms at NEAREST by definition; the target precision of ADD_ROUND
is valid when the operands decode, so both forms answer AddCore at it. -/
theorem commandsAgreeWithCanonical : Obligations.CommandsAgreeWithCanonical := by
  intro s p m
  refine ⟨rfl, fun x y hb hxy => ?_, rfl⟩
  have hrange : 1 ≤ operandPrecision x y ∧ operandPrecision x y ≤ s.build.pMax :=
    targetOf_range (i := .addRound m) hb trivial (decodeBundle_legal hb hxy.1) (decodeBundle_legal hb hxy.2)
  rw [exec_of_holds (i := .addRound m) trivial hxy, exec_of_holds (i := .addPrecRound _ m) hrange hxy]
  rfl

end Sys2Proof.Machine
end

section
/-! SUPPORT. Which numbers a rounding leaves between its result and the exact value: none of the target precision, and
fewer at a larger precision (rules R434, R508, R516). -/

namespace Sys2Proof

/-! ## Representable numbers of several precisions (rule R516) -/

/-- `R_p ⊆ R_p'` for `p ≤ p'`: a significand is widened with zeros. -/
theorem Representable.mono {p p' : Nat} {x : ℚ} (hp : 1 ≤ p) (hpp : p ≤ p') (h : Representable p x) :
    Representable p' x := by
  obtain ⟨m, k, h1, h2, rfl⟩ := h
  obtain ⟨d, rfl⟩ := Nat.exists_eq_add_of_le hpp
  refine ⟨m * 2 ^ d, k - d, ?_, ?_, ?_⟩
  · rw [Nat.sub_add_comm hp, Nat.pow_add]
    exact Nat.mul_le_mul_right _ h1
  · rw [Nat.pow_add]
    exact Nat.mul_lt_mul_of_pos_right h2 (Nat.two_pow_pos d)
  · rw [scaled_mul_two_pow, sub_add_cancel]

theorem abs_signed_sub_signed (s : Bool) (x y : ℚ) : |signed s x - signed s y| = |x - y| := by
  cases s with
  | false => rfl
  | true => exact (congrArg abs (neg_sub_neg x y)).trans (abs_sub_comm y x)

/-- The errors of two Floats of one sign compare as those of their magnitudes do. -/
theorem abs_toRat_sub_le {s : Bool} {e e' : Int} {p p' t t' : Nat} {x z z' : ℚ} (hz : (Flt.fin s e p t).toRat = some z)
    (hz' : (Flt.fin s e' p' t').toRat = some z')
    (h : |scaled t' (e' - p' + 1) - x| ≤ |scaled t (e - p + 1) - x|) : |z' - signed s x| ≤ |z - signed s x| := by
  rwa [← Option.some_inj.1 hz, ← Option.some_inj.1 hz', abs_signed_sub_signed, abs_signed_sub_signed]

section Nearer
variable {P Q : ℚ → Prop} {x z z' : ℚ}

/-- Of a larger set of numbers, the greatest one not above `x` is no farther from `x`. -/
theorem abs_sub_le_of_isGreatest (hPQ : ∀ y, P y → Q y) (h : IsGreatest {y | P y ∧ y ≤ x} z)
    (h' : IsGreatest {y | Q y ∧ y ≤ x} z') : |z' - x| ≤ |z - x| := by
  have hle : z ≤ z' := h.mono h' fun y ⟨hy, hyx⟩ => ⟨hPQ y hy, hyx⟩
  rw [abs_of_nonpos (sub_nonpos.2 h'.1.2), abs_of_nonpos (sub_nonpos.2 h.1.2)]
  linarith

/-- Of a larger set of numbers, the least one not below `x` is no farther from `x`. -/
theorem abs_sub_le_of_isLeast (hPQ : ∀ y, P y → Q y) (h : IsLeast {y | P y ∧ x ≤ y} z)
    (h' : IsLeast {y | Q y ∧ x ≤ y} z') : |z' - x| ≤ |z - x| := by
  have hle : z' ≤ z := h.mono h' fun y ⟨hy, hyx⟩ => ⟨hPQ y hy, hyx⟩
  rw [abs_of_nonneg (sub_nonneg.2 h'.1.2), abs_of_nonneg (sub_nonneg.2 h.1.2)]
  linarith

end Nearer

/-- A number strictly between two numbers of one sign has that sign, and its magnitude is between theirs. -/
theorem abs_between_of_signed_between {s : Bool} {a b v : ℚ} (ha : 0 < a) (hb : 0 < b)
    (h : (signed s a < v ∧ v < signed s b) ∨ (signed s b < v ∧ v < signed s a)) :
    (a < |v| ∧ |v| < b) ∨ (b < |v| ∧ |v| < a) := by
  cases s with
  | false =>
    have h : (a < v ∧ v < b) ∨ (b < v ∧ v < a) := h
    have hv : 0 < v := h.elim (fun h => ha.trans h.1) (fun h => hb.trans h.1)
    rwa [abs_of_pos hv]
  | true =>
    have h : (-a < v ∧ v < -b) ∨ (-b < v ∧ v < -a) := h
    have hv : v < 0 := h.elim (fun h => h.2.trans (neg_neg_of_pos hb)) (fun h => h.2.trans (neg_neg_of_pos ha))
    rw [abs_of_neg hv]
    exact h.symm.imp (fun h => ⟨lt_neg.1 h.2, neg_lt.1 h.1⟩) (fun h => ⟨lt_neg.1 h.2, neg_lt.1 h.1⟩)

namespace Machine

/-- Settles O21: `R_p ⊆ R_p'`, and each mode delivers the number of its set that is nearest to the exact value, of all
or on one side of it. -/
theorem largerPrecisionNeverLosesAccuracy : Obligations.LargerPrecisionNeverLosesAccuracy := by
  intro emax n q s p p' m r r' z z' hn hp hpp hm h h' hz hz'
  have hp' := hp.trans hpp
  have hsub : ∀ y, Representable p y → Representable p' y := fun y hy => hy.mono hp hpp
  have hsub_abs : ∀ y, Representable p |y| → Representable p' |y| := fun y hy => hsub _ hy
  cases m with
  | exact => exact absurd rfl hm
  | floor =>
    obtain ⟨v, hv, hmax⟩ := (floorAndCeilAreDirected emax n q s p r hn hp).1 h
    obtain ⟨v', hv', hmax'⟩ := (floorAndCeilAreDirected emax n q s p' r' hn hp').1 h'
    rw [Option.some_inj.1 (hz.symm.trans hv), Option.some_inj.1 (hz'.symm.trans hv')]
    exact abs_sub_le_of_isGreatest hsub_abs hmax hmax'
  | ceil =>
    obtain ⟨v, hv, hmin⟩ := (floorAndCeilAreDirected emax n q s p r hn hp).2 h
    obtain ⟨v', hv', hmin'⟩ := (floorAndCeilAreDirected emax n q s p' r' hn hp').2 h'
    rw [Option.some_inj.1 (hz.symm.trans hv), Option.some_inj.1 (hz'.symm.trans hv')]
    exact abs_sub_le_of_isLeast hsub_abs hmin hmin'
  | trunc =>
    obtain ⟨e, t, hfin, hmax⟩ := (truncAndAwayBracketTheExactValue emax n q s p r hn hp).1 h
    obtain ⟨e', t', hfin', hmax'⟩ := (truncAndAwayBracketTheExactValue emax n q s p' r' hn hp').1 h'
    exact abs_toRat_sub_le (hfin ▸ hz) (hfin' ▸ hz') (abs_sub_le_of_isGreatest hsub hmax hmax')
  | away =>
    obtain ⟨e, t, hfin, hmin⟩ := (truncAndAwayBracketTheExactValue emax n q s p r hn hp).2 h
    obtain ⟨e', t', hfin', hmin'⟩ := (truncAndAwayBracketTheExactValue emax n q s p' r' hn hp').2 h'
    exact abs_toRat_sub_le (hfin ▸ hz) (hfin' ▸ hz') (abs_sub_le_of_isLeast hsub hmin hmin')
  | nearest =>
    obtain ⟨e, t, hfin, hrep, -⟩ := nearestTiesToEven emax n q s p r hn hp h
    obtain ⟨e', t', hfin', -, hnearest⟩ := nearestTiesToEven emax n q s p' r' hn hp' h'
    exact abs_toRat_sub_le (hfin ▸ hz) (hfin' ▸ hz') (hnearest _ (hsub _ hrep)).1

/-! ## Delivery (rule R508) -/

/-- In a mode other than EXACT, an exact value whose leading exponent is below the bound is delivered: rounding raises
the exponent by at most 1. -/
theorem exists_roundSOR_eq_ok {emax : Int} {n : Nat} {q : Int} {p : Nat} {m : RoundMode} (s : Bool) (hn : 0 < n)
    (hp : 1 ≤ p) (hm : m ≠ .exact) (hmax : q + bitlen n ≤ emax) : ∃ r, roundSOR emax n q s p m = .ok r := by
  cases hr : roundSOR emax n q s p m with
  | ok r => exact ⟨r, rfl⟩
  | error f =>
    rcases roundCut_error hr with ⟨-, hexact, -⟩ | ⟨-, inc, -, -, hover⟩
    · exact absurd hexact hm
    · obtain ⟨h1, h2⟩ := cutTo_range hn hp
      obtain ⟨-, -, -, he⟩ := increment_range (inc := inc) (e := q + bitlen n - 1) hp h1 h2
      omega

/-- A rounding delivers a neighbour of the exact value: no representable magnitude lies strictly between the two. -/
theorem roundSOR_ok_neighbour {emax : Int} {n : Nat} {q : Int} {s : Bool} {p : Nat} {m : RoundMode} {r : Rounded}
    {e : Int} {t : Nat} {y : ℚ} (hn : 0 < n) (hp : 1 ≤ p) (h : roundSOR emax n q s p m = .ok r)
    (hz : r.z = .fin s e p t) (hy : Representable p y) :
    ¬((scaled t (e - p + 1) < y ∧ y < scaled n q) ∨ (scaled n q < y ∧ y < scaled t (e - p + 1))) := by
  obtain ⟨-, e', t', hz', -, -, -, hvalue⟩ := roundSOR_ok_value hn hp h
  obtain ⟨-, rfl, -, rfl⟩ := Flt.fin.inj (hz.symm.trans hz')
  obtain ⟨h1, -⟩ := cutTo_range hn hp
  obtain ⟨hlow, hhigh, -⟩ := cutTo_bracket n p q
  have hgap := hy.le_or_succ_le (k := q + bitlen n - p) hp h1
  rw [hvalue]
  cases r.inc with
  | false =>
    rw [Bool.toNat_false, Nat.add_zero]
    rintro (⟨hzy, hyx⟩ | ⟨hxy, hyz⟩)
    · exact hgap.elim hzy.not_ge (hyx.trans hhigh).not_ge
    · exact (hxy.trans hyz).not_ge hlow
  | true =>
    rw [Bool.toNat_true]
    rintro (⟨hzy, hyx⟩ | ⟨hxy, hyz⟩)
    · exact (hzy.trans hyx).not_gt hhigh
    · exact hgap.elim (hlow.trans_lt hxy).not_ge hyz.not_ge

/-- Settles O36: the leading exponent of the sum is at most 1 above the larger operand's, so every mode but EXACT
delivers a neighbour of it, and its bundle decodes. -/
theorem sameSignSumIsDelivered : Obligations.SameSignSumIsDelivered := by
  intro i s sg e e' p m p' m' xv yv hb hxy hi hmode hmax hx hy t
  have hval : exactValueOf (.fin sg e p m) (.fin sg e' p' m') = some (sg, exactSum ⟨e, p, m⟩ ⟨e', p', m'⟩) := if_pos rfl
  have hxl := decodeBundle_legal hb hxy.1
  have hyl := decodeBundle_legal hb hxy.2
  have hn := exactSum_pos ⟨e', p', m'⟩ hxl.magnitude
  have hlen : (exactSum ⟨e, p, m⟩ ⟨e', p', m'⟩).q + bitlen (exactSum ⟨e, p, m⟩ ⟨e', p', m'⟩).n ≤ max e e' + 2 :=
    bitlen_exactSum_le hxl.magnitude hyl.magnitude
  have ht : 1 ≤ t := (targetOf_range hb hi hxl hyl).1
  obtain ⟨r, hr⟩ := exists_roundSOR_eq_ok sg hn ht hmode (hlen.trans hmax)
  obtain ⟨ez, mz, hz, hmz, -⟩ := roundSOR_ok_fin hn ht hr
  obtain ⟨g, hcore⟩ := addCore_of_exactValue s.build t (modeOf i) hval
  rw [hr] at hcore
  have hanswer := (answerOf_eq_addCore hi hxy).trans hcore
  refine ⟨_, ez, mz, _, exec_eq i s, ?_, ?_, rfl, fun v hv hbetween => ?_⟩
  · rw [hanswer]
    exact statusOf_ok _ _
  · rw [hanswer, ← hz]
    exact decodeBundle_encodeBundle hb (answerOf_ok_legal hb hanswer)
  · rw [← signed_exactValueOf hval hx hy] at hbetween
    exact roundSOR_ok_neighbour hn ht hr hz hv (abs_between_of_signed_between
      (scaled_pos _ ((Nat.two_pow_pos _).trans_le hmz)) (scaled_pos _ hn) hbetween)

end Machine
end Sys2Proof
end

section
/-! SUPPORT. Every edge of a legal build has a next state, and a request is answered with the first status that applies
(rules R433, R603, R610). -/

namespace Sys2Proof.Machine

/-! ## The frame of a command, and no stop (rule R603) -/

/-- Settles O47: a command only completes the operation with its answer. -/
theorem commandFrame : Obligations.CommandFrame := fun i s => ⟨_, exec_eq i s, rfl, rfl, rfl, rfl, rfl⟩

/-- Without reset, no handshake state is without a next one: a completing edge answers every word, legal or not. -/
theorem exists_runningEdge_eq_next (s : State) : ∃ t, runningEdge s = .next t := by
  unfold runningEdge
  cases s.st with
  | idle => exact ⟨_, rfl⟩
  | busy =>
    rcases le_or_gt s.lat 1 with hdue | hwait
    · exact ⟨_, (if_pos hdue).trans (completingEdge_eq s)⟩
    · exact ⟨_, if_neg hwait.not_ge⟩
  | done => exact ⟨_, rfl⟩

/-- Settles O58. -/
theorem legalBuildNeverStops : Obligations.LegalBuildNeverStops := by
  intro s
  refine ⟨fun hb => ?_, step_of_illegal⟩
  cases hr : s.pinsNow.rst with
  | true => exact ⟨_, step_reset hb hr⟩
  | false =>
    obtain ⟨t, ht⟩ := exists_runningEdge_eq_next s
    exact ⟨t.tick, by rw [step_running hb hr, ht, tickOutcome]⟩

/-! ## Which roundings fail (rules R421, R433) -/

section Rounding
variable {emax : Int} {n : Nat} {q : Int} {p : Nat} {m : RoundMode}

/-- Unless EXACT meets a value that is not representable, a rounding delivers or overflows. -/
theorem roundSOR_ok_or_overflow (s : Bool) (hn : 0 < n) (hp : 1 ≤ p) (h : m ≠ .exact ∨ Representable p (scaled n q)) :
    (∃ r, roundSOR emax n q s p m = .ok r) ∨ roundSOR emax n q s p m = .error .expOverflow := by
  cases hr : roundSOR emax n q s p m with
  | ok r => exact .inl ⟨r, rfl⟩
  | error f =>
    rcases roundSOR_error hr with ⟨rfl, rfl⟩ | rfl
    · have hrep : Representable p (scaled n q) := h.resolve_left (not_not_intro rfl)
      exact absurd hrep ((exactModeSucceedsIffRepresentable emax n q s p hn hp).1.1 hr)
    · exact .inr rfl

/-- A value that is delivered is below `2^(EMAX + 1)`, as no rounding lowers its exponent. -/
theorem scaled_lt_of_roundSOR_ok {s : Bool} {r : Rounded} (hn : 0 < n) (hp : 1 ≤ p)
    (h : roundSOR emax n q s p m = .ok r) :
    scaled n q < 2 ^ (emax + 1) := by
  obtain ⟨e, t, -, -, -, hlow, -, hmax⟩ := roundSOR_ok_fin hn hp h
  have hlead : q + bitlen n - 1 - bitlen n + 1 = q := by omega
  calc scaled n q < 2 ^ (q + bitlen n - 1 + 1) := by
        simpa only [hlead] using scaled_lt_two_zpow (q + bitlen n - 1) (lt_two_pow_bitlen n)
    _ ≤ 2 ^ (emax + 1) := zpow_le_zpow_right₀ (by norm_num) (by omega)

end Rounding

/-! ## The status of a response (rules R321, R500) -/

theorem faultCode_injective : Function.Injective faultCode := by
  intro f g h
  cases f <;> cases g <;> cases h <;> rfl

/-- A response has the status of a failure exactly when its operation failed so. -/
theorem statusOf_responseOf_eq_faultCode {b : Build} {d : Except FaultStatus Delivery} {f : FaultStatus} :
    statusOf (responseOf b d).word = faultCode f ↔ d = .error f := by
  cases d with
  | ok v =>
    rw [responseOf, statusOf_ok]
    exact iff_of_false (Nat.ne_of_lt (faultCode_pos f).1) nofun
  | error g => rw [responseOf, statusOf_fault, faultCode_injective.eq_iff, Except.error.injEq]

theorem deliverRounded_eq_error {r : Except FaultStatus Rounded} {g : Regime} {f : FaultStatus} :
    deliverRounded r g = .error f ↔ r = .error f := by
  cases r with
  | ok z => exact iff_of_false nofun nofun
  | error f' => rw [deliverRounded, Except.error.injEq, Except.error.injEq]

/-- NaN, an infinity or two zeros make AddCore deliver a special value. -/
theorem addCore_special {x y : Flt} (b : Build) (p : Nat) (m : RoundMode)
    (h : x = .nan ∨ y = .nan ∨ (∃ a, x = .inf a) ∨ (∃ a, y = .inf a) ∨ (∃ a a', x = .zero a ∧ y = .zero a')) :
    ∃ v, addCore b p m x y = special v := by
  rcases h with rfl | rfl | ⟨a, rfl⟩ | ⟨a, rfl⟩ | ⟨a, a', rfl, rfl⟩
  · exact ⟨_, addCore_nan_left b p m y⟩
  · exact ⟨_, addCore_nan_right b p m x⟩
  · cases y <;> exact ⟨_, rfl⟩
  · cases x <;> exact ⟨_, rfl⟩
  · exact ⟨_, addCore_zero_zero b p m a a'⟩

theorem execute_of_illegal {c : Word32} (b : Build) (X Y : Nat) (h : illegal c = true) :
    execute b c X Y = .error .illegalCommand := if_pos h

/-- What `Execute` computes for a request is the answer of its decoded command in any state that holds the request. -/
theorem execute_eq_answerOf {b : Build} {c : Word32} {i : Instr} (X Y : Nat) (h : decode c = .ok i) :
    execute b c X Y = answerOf i { State.reset with build := b, req := ⟨c, X, Y⟩ } :=
  execute_of_decode_ok (s := { State.reset with build := b, req := ⟨c, X, Y⟩ }) h

/-- Settles O42. The status says how `Execute` ended. Its checks come in the order of the rule; what AddCore rounds is
never 0, so the rounding fails as INEXACT or as overflow by the laws of the rounding alone. -/
theorem faultPriority : Obligations.FaultPriority := by
  intro b c X Y hb st
  have status_of_error : ∀ f, execute b c X Y = .error f → st = faultCode f := fun f =>
    statusOf_responseOf_eq_faultCode.2
  refine ⟨fun h => status_of_error .illegalCommand (execute_of_illegal b X Y h), fun i hi => ?_⟩
  have hexec := execute_eq_answerOf (b := b) X Y hi
  refine ⟨fun hp => status_of_error .invalidPrecision (hexec.trans (answerOf_of_invalid_precision hp)),
    fun hp => ⟨fun h => status_of_error .invalidOperand (hexec.trans (answerOf_of_invalid_operand hp h)),
      fun x y hx hy => ?_⟩⟩
  have hcore : execute b c X Y = addCore b (targetOf i x y) (modeOf i) x y :=
    hexec.trans (answerOf_eq_addCore hp ⟨hx, hy⟩)
  refine ⟨fun h => ?_, ?_, ?_⟩
  · obtain ⟨v, hv⟩ := addCore_special b (targetOf i x y) (modeOf i) h
    exact statusOf_responseOf_eq_zero.2 ⟨_, hcore.trans hv⟩
  · rintro sg e p m e' p' m' rfl rfl
    exact status_of_error .subRequired (by rw [hcore, addCore_fin_fin, if_pos (Bool.not_ne_self sg).symm])
  · intro sg v hval t
    have hxl := decodeBundle_legal hb hx
    have hyl := decodeBundle_legal hb hy
    have hn : 0 < v.n := (exactValueOf_range hxl hyl hval).1
    have ht : 1 ≤ t := (targetOf_range hb hp hxl hyl).1
    obtain ⟨g, hround⟩ := addCore_of_exactValue b t (modeOf i) hval
    have status_iff : ∀ f, st = faultCode f ↔ roundSOR b.emax v.n v.q sg t (modeOf i) = .error f := fun f =>
      statusOf_responseOf_eq_faultCode.trans (by rw [hcore, hround, deliverRounded_eq_error])
    refine ⟨fun hm hrep => (status_iff .inexact).2 ?_, fun hdeliver => ?_⟩
    · rw [hm]
      exact (exactModeSucceedsIffRepresentable b.emax v.n v.q sg t hn ht).1.2 hrep
    · have hcases := roundSOR_ok_or_overflow (emax := b.emax) sg hn ht hdeliver
      refine ⟨hcases.imp ?_ (status_iff .expOverflow).2,
        (status_iff .expOverflow).trans (overflowIffExponentExceedsBound b.emax v.n v.q sg t (modeOf i)),
        fun hbig => (status_iff .expOverflow).2 (hcases.resolve_left ?_)⟩
      · rintro ⟨r, hr⟩
        rw [hr] at hround
        exact statusOf_responseOf_eq_zero.2 ⟨_, hcore.trans hround⟩
      · rintro ⟨r, hr⟩
        exact (scaled_lt_of_roundSOR_ok hn ht hr).not_ge hbig

end Sys2Proof.Machine
end

section
/-! SUPPORT. Runs of any number of edges: what every run keeps, and an invariant packaged with the levels that its edges
sample (rules R100, R705 to R708). -/

namespace Sys2Proof.Machine

/-- No edge changes the build, and each uses up one entry of the host's schedule. -/
theorem step_frame {s t : State} (h : step s = .next t) :
    t.build = s.build ∧ ∀ k, t.pinsAt k = s.pinsAt (k + 1) := by
  obtain ⟨-, hcase⟩ := step_cases h
  rcases hcase with ⟨-, rfl⟩ | ⟨-, ⟨-, -, rfl⟩ | ⟨-, -, rfl⟩ | ⟨-, -, rfl⟩ | ⟨-, -, rfl⟩ | ⟨-, -, rfl⟩ | ⟨-, -, rfl⟩⟩ <;>
    exact ⟨rfl, pinsAt_tick _⟩

/-- A run that ends in a next state began with a step that did. -/
theorem run_succ_eq_next {n : Nat} {s t : State} (h : core.run (n + 1) s = .next t) :
    ∃ u, step s = .next u ∧ core.run n u = .next t := by
  cases hstep : step s with
  | next u => exact ⟨u, rfl, (run_succ_of_step n hstep).symm.trans h⟩
  | fault f => cases f
  | refused r =>
    have hrefused : core.run (n + 1) s = .refused r :=
      (Host.Core.run.eq_2 core s n).trans (by rw [show core.step s = .refused r from hstep])
    cases hrefused.symm.trans h

/-- The frame of a step, over a run of any length. -/
theorem run_frame {n : Nat} {s t : State} (h : core.run n s = .next t) :
    t.build = s.build ∧ ∀ k, t.pinsAt k = s.pinsAt (k + n) := by
  induction n generalizing s with
  | zero => cases h; exact ⟨rfl, fun _ => rfl⟩
  | succ n ih =>
    obtain ⟨u, hstep, hrun⟩ := run_succ_eq_next h
    obtain ⟨hub, hupins⟩ := step_frame hstep
    obtain ⟨htb, htpins⟩ := ih hrun
    exact ⟨htb.trans hub, fun k => (htpins k).trans (hupins (k + n))⟩

/-- After `n` edges the levels sampled next are those that were due at edge `n`. -/
theorem run_pinsNow {n : Nat} {s t : State} (h : core.run n s = .next t) : t.pinsNow = s.pinsAt n := by
  rw [pinsNow_eq_pinsAt, (run_frame h).2, Nat.zero_add]

/-- A run of one more edge ends with a step. -/
theorem run_succ_of_run {n : Nat} {s t u : State} (h : core.run n s = .next t) (hstep : step t = .next u) :
    core.run (n + 1) s = .next u := by
  induction n generalizing s with
  | zero => cases h; exact run_succ_of_step 0 hstep
  | succ n ih =>
    obtain ⟨v, hv, hrun⟩ := run_succ_eq_next h
    exact (run_succ_of_step (n + 1) hv).trans (ih hrun)

/-- What every edge keeps whose levels meet `Q`, every run keeps whose levels meet `Q`. -/
theorem run_keeps {P : State → Prop} {Q : Pins → Prop}
    (hstep : ∀ s, P s → Q s.pinsNow → ∃ t, step s = .next t ∧ P t) {n : Nat} {s : State} (hs : P s)
    (hpins : ∀ k < n, Q (s.pinsAt k)) : ∃ t : State, core.run n s = .next t ∧ P t := by
  induction n with
  | zero => exact ⟨s, rfl, hs⟩
  | succ n ih =>
    obtain ⟨t, hrun, ht⟩ := ih fun k hk => hpins k (Nat.lt_succ_of_lt hk)
    obtain ⟨u, hu, hPu⟩ := hstep t ht (run_pinsNow hrun ▸ hpins n n.lt_succ_self)
    exact ⟨u, run_succ_of_run hrun hu, hPu⟩

end Sys2Proof.Machine
end

section
/-! SUPPORT. Reset and the handshake: the invariant of a safe state, what one edge does, and what a host sees over many
(rules R700 to R708). -/

namespace Sys2Proof

theorem Build.Legal.latMax_ne_zero {b : Build} (hb : b.Legal) : b.latMax ≠ 0 := by
  obtain ⟨-, -, -, -, -, -, -, hlat⟩ := hb
  exact hlat

/-- The build of the state after reset is legal, whatever its `LAT_MAX` is (rules R5 to R8). -/
theorem resetBuild_legal : Config.resetBuild.Legal := by
  simp [Build.Legal, Config.resetBuild]

namespace Machine

/-! ## The invariant, one lemma per kind of edge -/

section Invariant
variable {s : State}

theorem State.Inv.tick (h : s.Inv) : s.tick.Inv := h

/-- A reset edge leaves no operation, so that only the latches matter (rules R700, R701). -/
theorem State.Inv.resetEdge (h : s.Inv) : s.resetEdge.Inv := by
  obtain ⟨hb, -⟩ := h
  obtain ⟨hx, hy, hz⟩ := resetEdge_latches_fit s
  exact ⟨hb, hx, hy, hz, nofun, nofun⟩

/-- Acceptance cuts the bundles at the port width and draws a latency in `[1, LAT_MAX]` (rules R702, R706). -/
theorem State.Inv.accept (h : s.Inv) (p : Pins) : (s.accept p).Inv := by
  obtain ⟨hb, -, -, hz, -, -⟩ := h
  exact ⟨hb, Nat.mod_lt _ (Nat.two_pow_pos _), Nat.mod_lt _ (Nat.two_pow_pos _), hz,
    fun _ => latencyAt_range s.build s.edges hb.latMax_ne_zero, nofun⟩

/-- Before the completing edge at least one edge is left (rule R706). -/
theorem State.Inv.countDown (h : s.Inv) (hs : s.st = .busy) (hl : 1 < s.lat) : s.countDown.Inv := by
  obtain ⟨hb, hx, hy, hz, hbusy, hdone⟩ := h
  refine ⟨hb, hx, hy, hz, fun _ => ?_, hdone⟩
  have hmax : s.lat ≤ s.build.latMax := (hbusy hs).2
  simp only [countDown_lat, countDown_build]
  omega

/-- The response written is that of the latched request, and its bundle fits the port (rule R705). -/
theorem State.Inv.complete (h : s.Inv) : (s.complete (respondTo s.build s.req)).Inv := by
  obtain ⟨hb, hx, hy, -⟩ := h
  exact ⟨hb, hx, hy, responseOf_z_lt s.build _, nofun, fun _ => rfl⟩

theorem State.Inv.takeResponse (h : s.Inv) : s.takeResponse.Inv := by
  obtain ⟨hb, hx, hy, hz, -, -⟩ := h
  exact ⟨hb, hx, hy, hz, nofun, nofun⟩

end Invariant

/-- Settles O56: every kind of edge keeps the invariant. -/
theorem stepKeepsInvariant : Obligations.StepKeepsInvariant := by
  intro s t hinv hstep
  obtain ⟨hb, ⟨-, rfl⟩ | ⟨hr, hcase⟩⟩ := step_cases hstep
  · exact hinv.resetEdge.tick
  rcases hcase with ⟨-, -, rfl⟩ | ⟨-, -, rfl⟩ | ⟨hs, hl, rfl⟩ | ⟨hs, hl, -⟩ | ⟨-, -, rfl⟩ | ⟨-, -, rfl⟩
  · exact (hinv.accept s.pinsNow).tick
  · exact hinv.tick
  · exact (hinv.countDown hs hl).tick
  · obtain rfl : (s.complete (respondTo s.build s.req)).tick = t :=
      Host.Outcome.next.inj ((step_complete_respondTo hb hr hs hl).symm.trans hstep)
    exact hinv.complete.tick
  · exact hinv.takeResponse.tick
  · exact hinv.tick

/-- Settles O57: after reset no operation is held, and the latches of the model hold zeros. -/
theorem resetMeetsInvariant : Obligations.ResetMeetsInvariant :=
  ⟨resetBuild_legal, Nat.two_pow_pos _, Nat.two_pow_pos _, Nat.two_pow_pos _, nofun, nofun⟩

/-! ## One edge -/

/-- Settles O45. -/
theorem completingEdgeIsExecute : Obligations.CompletingEdgeIsExecute :=
  fun _ ⟨hb, hs, hl, hr⟩ => step_complete_respondTo hb hr hs hl

/-- Settles O46: `Execute` on a word that decodes is the answer of its command, which is all that `exec` writes. -/
theorem stepRunsDecodedCommand : Obligations.StepRunsDecodedCommand := by
  rintro s i ⟨hb, hs, hl, hr⟩ hi
  refine ⟨_, exec_eq i s, ?_⟩
  rw [step_complete_respondTo hb hr hs hl, respondTo, execute_of_decode_ok hi]
  rfl

/-- Settles O48. -/
theorem resetEdge : Obligations.ResetEdge := by
  intro s
  refine ⟨fun hr => ?_, fun hr => ?_⟩
  · simp [reqReady_eq, rspValid_eq, hr]
  · obtain ⟨hready, hvalid⟩ := outputs_of_reset hr
    exact ⟨hready, hvalid, fun hb => ⟨_, step_reset hb hr, rfl, rfl, rfl, rfl⟩⟩

/-- Settles O49: the latency is the draw of the accepting edge. -/
theorem acceptingEdge : Obligations.AcceptingEdge := by
  intro s hb hs hr
  obtain ⟨hpos, hmax⟩ := latencyAt_range s.build s.edges hb.latMax_ne_zero
  exact ⟨fun hv => ⟨_, hpos, hmax, step_accept hb hr hs hv⟩, step_idle hb hr hs⟩

/-- Settles O50. -/
theorem takingEdge : Obligations.TakingEdge :=
  fun _ hb hs hr => ⟨step_take hb hr hs, step_hold hb hr hs⟩

/-! ## Many edges -/

/-- A legal build in DONE with this response. -/
def State.Presents (r : Response) (s : State) : Prop := s.build.Legal ∧ s.st = .done ∧ s.rsp = r

/-- An edge that neither resets nor takes the response goes on presenting it (rule R707). -/
theorem step_keeps_presents {r : Response} {s : State} (h : s.Presents r)
    (hp : s.pinsNow.rst = false ∧ s.pinsNow.rspReady = false) : ∃ t, step s = .next t ∧ t.Presents r := by
  obtain ⟨hb, hs, hrsp⟩ := h
  exact ⟨_, step_hold hb hp.1 hs hp.2, hb, hs, hrsp⟩

/-- Settles O51: the response register is kept through all edges, and in DONE it is what the outputs show. -/
theorem responseIsStableUntilTaken : Obligations.ResponseIsStableUntilTaken := by
  intro n s hb hs hpins hrst
  obtain ⟨t, hrun, -, hdone, hrsp⟩ := run_keeps (P := State.Presents s.rsp)
    (Q := fun p => p.rst = false ∧ p.rspReady = false) (fun _ => step_keeps_presents) ⟨hb, hs, rfl⟩ hpins
  exact ⟨t, hrun, by rw [outputs_of_done hdone (run_pinsNow hrun ▸ hrst), hrsp]⟩

/-- An edge in IDLE that resets or offers no request ends in IDLE (rules R700, R702). -/
theorem step_stays_idle {s : State} (h : s.build.Legal ∧ s.st = .idle)
    (hp : s.pinsNow.rst = true ∨ s.pinsNow.reqValid = false) :
    ∃ t, step s = .next t ∧ t.build.Legal ∧ t.st = .idle := by
  obtain ⟨hb, hs⟩ := h
  cases hr : s.pinsNow.rst with
  | true => exact ⟨_, step_reset hb hr, hb, rfl⟩
  | false =>
    have hv : s.pinsNow.reqValid = false := hp.resolve_left (by simp [hr])
    exact ⟨_, step_idle hb hr hs hv, hb, hs⟩

/-- Settles O52: the reset edge ends in IDLE, which only an accepted request leaves. -/
theorem resetDiscardsTheOperation : Obligations.ResetDiscardsTheOperation := by
  intro n s hb hrst hpins
  have hreset : step s = .next s.resetEdge.tick := step_reset hb (pinsNow_eq_pinsAt s ▸ hrst)
  have hquiet : ∀ k < n, (s.resetEdge.tick.pinsAt k).rst = true ∨ (s.resetEdge.tick.pinsAt k).reqValid = false := by
    intro k hk
    rw [(step_frame hreset).2]
    exact hpins (k + 1) (by omega) hk
  obtain ⟨t, hrun, -, hidle⟩ := run_keeps (P := fun u => u.build.Legal ∧ u.st = .idle)
    (Q := fun p => p.rst = true ∨ p.reqValid = false) (s := s.resetEdge.tick) (fun _ => step_stays_idle) ⟨hb, rfl⟩
    hquiet
  exact ⟨t, (run_succ_of_step n hreset).trans hrun, hidle, by simp [rspValid_eq, hidle]⟩

/-- Settles O54: the accepting edge draws a latency within `LAT_MAX`, the operation completes after that many edges
(`run_lat_of_busy`), and the next edge takes the response. -/
theorem requestIsAnsweredInTime : Obligations.RequestIsAnsweredInTime := by
  intro s hb hs hv hpins
  obtain ⟨hpos, hmax⟩ := latencyAt_range s.build s.edges hb.latMax_ne_zero
  rw [← pinsNow_eq_pinsAt] at hv ⊢
  have haccept : step s = .next (s.accept s.pinsNow).tick :=
    step_accept hb (pinsNow_eq_pinsAt s ▸ (hpins 0 (Nat.zero_le _)).1) hs hv
  have hrst : ∀ k < latencyAt s.build s.edges, ((s.accept s.pinsNow).tick.pinsAt k).rst = false := by
    intro k hk
    rw [(step_frame haccept).2]
    exact (hpins (k + 1) (by omega)).1
  obtain ⟨t, hbusy, hdone, hrsp⟩ := run_lat_of_busy (s := (s.accept s.pinsNow).tick) hb rfl hpos hrst
  have hrun : core.run (latencyAt s.build s.edges + 1) s = .next t := (run_succ_of_step _ haccept).trans hbusy
  obtain ⟨hnrst, hready⟩ := hpins (latencyAt s.build s.edges + 1) (by omega)
  rw [← run_pinsNow hrun] at hnrst hready
  have htake : step t = .next (State.takeResponse t).tick :=
    step_take ((run_frame hrun).1 ▸ hb) hnrst hdone hready
  exact ⟨_, hpos, hmax, ⟨t, hrun, hdone, hrsp⟩, ⟨_, run_succ_of_run hrun htake, rfl⟩⟩

end Machine
end Sys2Proof
end

section
/-! SUPPORT. Command words written out from their fields: each is the encoding of its command, so O1 says what it decodes
to (30_encoding.md section 1). -/

namespace Sys2Proof

/-- A word that is the encoding of a well-formed command decodes to that command. -/
theorem decode_eq_ok_of_encode_eq {i : Instr} {c : Word32} (hi : i.WellFormed) (hc : encode i = c) :
    decode c = .ok i := by
  subst hc
  exact decodeEncodeEveryCommand i hi

/-- Settles O4: each word is the encoding of the command it is to decode to. -/
theorem specCommandWordsDecode : Obligations.SpecCommandWordsDecode := by
  refine ⟨?addPrecRoundNearest, ?addPrecRoundCeil, ?addPrec, ?nearest, ?floor, ?ceil, ?trunc, ?away, ?exact, ?add⟩
  case addPrecRoundNearest | addPrecRoundCeil | addPrec =>
    exact decode_eq_ok_of_encode_eq (by decide : _ < 16777216) (by decide)
  case nearest | floor | ceil | trunc | away | exact | add =>
    exact decode_eq_ok_of_encode_eq trivial (by decide)

end Sys2Proof
end
